-- ==== Sys2Proof/Word.lean ====
section
/-! DEFINITION. The word types of the VarInt codec block: bytes, groups, the 64-bit integer fields and registers, the
80-bit Representation fields, the ten byte slots of `BUF`, and the I/O error value (spec/00_scope.md section 5 and 6,
spec/10_state.md R28 and R31). -/

namespace Sys2Proof

/-- One byte on a port or in a Representation slot: bits 7 to 0 (00_scope.md section 5). -/
abbrev Byte := BitVec 8

/-- One group: the seven payload bits of an encoded byte (30_encoding.md R81, field `G`). -/
abbrev Group := BitVec 7

/-- A 64-bit integer field or register: `ACC`, `REM` (R28), `opnd_int`, `res_int` (R31). -/
abbrev Word := BitVec 64

/-- An 80-bit Representation field of the interface: `opnd_rep`, `res_rep` (R31). -/
abbrev RepField := BitVec 80

/-- Ten byte slots: the register `BUF[0..9]` (R28). -/
abbrev Slots := Vector Byte 10

/-- The value of an I/O error, type `IoErr` of the spec: an OPEN parameter, never inspected by the block (R170,
92_eei_decisions.md D14).  DESIGN CHOICE (log entry 1): it is named by a number, so that states stay plain data. -/
structure IoErr where
  code : Nat
deriving DecidableEq, Repr

end Sys2Proof
end

