-- ==== Sys2Proof/Config.lean ====
section
/-! DEFINITION. The implementation parameters: the two codec families and what the family selector fixes, `W` and `N`
(spec/00_scope.md R2, R3, R9 and section 5).  The block has no other configuration (10_state.md R33), and the spec leaves
no result of a command open, so there is no uninterpreted constant here. -/

namespace Sys2Proof

/-- The family selector `fam` of a command (00_scope.md R2, R9): `f32` is `fam = 0` ("VarInt"), `f64` is `fam = 1`
("VarLong"). -/
inductive Fam where
  | f32
  | f64
deriving DecidableEq, Repr

/-- `W`, the integer width in bits of a family (R2). -/
abbrev Fam.W : Fam → Nat
  | .f32 => 32
  | .f64 => 64

/-- `N`, the maximum number of groups, of encoded bytes and of Representation slots of a family (R2). -/
abbrev Fam.N : Fam → Nat
  | .f32 => 5
  | .f64 => 10

end Sys2Proof
end

