-- ==== Sys2Proof/Syntax.lean ====
section
/-! DEFINITION. The commands: one constructor per row of spec/opcode_table.json (30_encoding.md R92).  A command word holds
no immediate and no operand field (R93), so no constructor carries data: operands arrive on the host interface
(10_state.md R31). -/

namespace Sys2Proof

/-- The twenty commands, in the order of the opcode table (30_encoding.md R92). -/
inductive Instr where
  | zze32
  | zzd32
  | rds32
  | rdr32
  | r2i32
  | wrs32
  | i2r32
  | wrr32
  | rdu32
  | wru32
  | zze64
  | zzd64
  | rds64
  | rdr64
  | r2i64
  | wrs64
  | i2r64
  | wrr64
  | rdu64
  | wru64
deriving DecidableEq, Repr

/-- The ten operations (30_encoding.md R92, column `op`). -/
inductive Op where
  | zze
  | zzd
  | rds
  | rdr
  | r2i
  | wrs
  | i2r
  | wrr
  | rdu
  | wru
deriving DecidableEq, Repr

/-- The command of an operation in a family (R92: suffix `.32` or `.64`). -/
def Instr.of : Fam → Op → Instr
  | .f32, .zze => .zze32
  | .f32, .zzd => .zzd32
  | .f32, .rds => .rds32
  | .f32, .rdr => .rdr32
  | .f32, .r2i => .r2i32
  | .f32, .wrs => .wrs32
  | .f32, .i2r => .i2r32
  | .f32, .wrr => .wrr32
  | .f32, .rdu => .rdu32
  | .f32, .wru => .wru32
  | .f64, .zze => .zze64
  | .f64, .zzd => .zzd64
  | .f64, .rds => .rds64
  | .f64, .rdr => .rdr64
  | .f64, .r2i => .r2i64
  | .f64, .wrs => .wrs64
  | .f64, .i2r => .i2r64
  | .f64, .wrr => .wrr64
  | .f64, .rdu => .rdu64
  | .f64, .wru => .wru64

/-- The family of a command (R91, field `fam`). -/
def Instr.fam : Instr → Fam
  | .zze32 | .zzd32 | .rds32 | .rdr32 | .r2i32 | .wrs32 | .i2r32 | .wrr32 | .rdu32 | .wru32 => .f32
  | .zze64 | .zzd64 | .rds64 | .rdr64 | .r2i64 | .wrs64 | .i2r64 | .wrr64 | .rdu64 | .wru64 => .f64

/-- The operation of a command (R91, field `op`). -/
def Instr.op : Instr → Op
  | .zze32 | .zze64 => .zze
  | .zzd32 | .zzd64 => .zzd
  | .rds32 | .rds64 => .rds
  | .rdr32 | .rdr64 => .rdr
  | .r2i32 | .r2i64 => .r2i
  | .wrs32 | .wrs64 => .wrs
  | .i2r32 | .i2r64 => .i2r
  | .wrr32 | .wrr64 => .wrr
  | .rdu32 | .rdu64 => .rdu
  | .wru32 | .wru64 => .wru

/-- The port a command uses (R92, column "ports used"); a command uses at most one. -/
inductive Port where
  | none
  | source
  | sink
deriving DecidableEq, Repr

/-- R92, column "ports used". -/
def Op.port : Op → Port
  | .zze | .zzd | .r2i | .i2r => .none
  | .rds | .rdr | .rdu => .source
  | .wrs | .wrr | .wru => .sink

/-- The kind of an operand or of a result: none, an integer, or a Representation (R92). -/
inductive ValueKind where
  | none
  | int
  | rep
deriving DecidableEq, Repr

/-- R92, columns "integer operand" and "Representation operand"; a command has at most one operand. -/
def Op.operand : Op → ValueKind
  | .rds | .rdr | .rdu => .none
  | .zze | .zzd | .wrs | .i2r | .wru => .int
  | .r2i | .wrr => .rep

/-- R92, column "result" (R175: the kind of value a command returns on success). -/
def Op.result : Op → ValueKind
  | .zze | .zzd | .rds | .r2i | .rdu => .int
  | .rdr | .i2r => .rep
  | .wrs | .wrr | .wru => .none

/-- The mnemonic without its family (R92). -/
def Op.mnemonic : Op → String
  | .zze => "ZZE"
  | .zzd => "ZZD"
  | .rds => "RDS"
  | .rdr => "RDR"
  | .r2i => "R2I"
  | .wrs => "WRS"
  | .i2r => "I2R"
  | .wrr => "WRR"
  | .rdu => "RDU"
  | .wru => "WRU"

/-- The full mnemonic `MNEMONIC.FAM` of a command (R92, R95). -/
def Instr.mnemonic (i : Instr) : String :=
  i.op.mnemonic ++ (match i.fam with | .f32 => ".32" | .f64 => ".64")

end Sys2Proof
end

