-- ==== Sys2Proof/WellFormed.lean ====
section
/-! DEFINITION. Well-formedness: of a command (nothing to check, R93) and of a Representation value (10_state.md R22).  The
precondition of `R2I` and `WRR` (R26), which is weaker, is `hasTerminator` of Sys2Proof/Machine/Operands.lean. -/

namespace Sys2Proof

/-- A command holds no immediate and no operand field (30_encoding.md R93), so every term of `Instr` is well formed. -/
def Instr.wf : Instr → Bool
  | .zze32 | .zzd32 | .rds32 | .rdr32 | .r2i32 | .wrs32 | .i2r32 | .wrr32 | .rdu32 | .wru32 => true
  | .zze64 | .zzd64 | .rds64 | .rdr64 | .r2i64 | .wrs64 | .i2r64 | .wrr64 | .rdu64 | .wru64 => true

/-- Slot `g` of a Representation field: bits `8g+7` to `8g` (10_state.md R31, 92_eei_decisions.md D18). -/
def repSlot (r : RepField) (g : Nat) : Byte :=
  r.extractLsb' (8 * g) 8

/-- `k` is the terminator index of `r`: slot `k` has bit 7 clear and every slot below it has bit 7 set (R22). -/
def isTerminatorIndex (r : RepField) (k : Nat) : Bool :=
  !(repSlot r k).msb && (List.range k).all fun j => (repSlot r j).msb

/-- `RepWF_W(R)` (R22): some `k` in `0 .. N-1` is the terminator index and every slot above it, up to the last slot of the
80-bit field, is `0x00` (a family-32 value leaves slots 5 to 9 zero, R31). -/
def repWF (f : Fam) (r : RepField) : Bool :=
  (List.range f.N).any fun k =>
    isTerminatorIndex r k && (List.range 10).all fun j => j ≤ k || repSlot r j == 0

/-- The default Representation value (R24): all slots `0x00`. -/
def defaultRep : RepField := 0

end Sys2Proof
end

