-- ==== Sys2Proof/Decode.lean ====
section
/-! DEFINITION. The command-word decoder, total on all 256 words and rejecting by name, and after it the encoder, both
written from the layout `cmd = {000, fam, op}` of 30_encoding.md R91 and the operation codes of R92. -/

namespace Sys2Proof

/-- Why a command word names no operation (30_encoding.md R94). -/
inductive Reject where
  /-- `cmd[7:5]` is not `000`. -/
  | zeroField
  /-- `op = cmd[3:0]` is one of `0xA .. 0xF`. -/
  | reservedOp
deriving DecidableEq, Repr

/-- What the decoder reads from a command word. -/
inductive Decoded where
  | instr (i : Instr)
  | reject (why : Reject)
deriving DecidableEq, Repr

/-- Field `zero`, bits 7:5 (R91). -/
def zeroField (w : Byte) : BitVec 3 := w.extractLsb' 5 3

/-- Field `fam`, bit 4 (R91): 0 selects family 32, 1 selects family 64. -/
def famField (w : Byte) : Fam := if w.getLsbD 4 then .f64 else .f32

/-- Field `op`, bits 3:0 (R91). -/
def opField (w : Byte) : BitVec 4 := w.extractLsb' 0 4

/-- The operation an operation code selects (R92); none for the reserved codes `0xA .. 0xF`. -/
def opOfCode (c : BitVec 4) : Option Op :=
  match c.toNat with
  | 0x0 => some .zze
  | 0x1 => some .zzd
  | 0x2 => some .rds
  | 0x3 => some .rdr
  | 0x4 => some .r2i
  | 0x5 => some .wrs
  | 0x6 => some .i2r
  | 0x7 => some .wrr
  | 0x8 => some .rdu
  | 0x9 => some .wru
  | _ => none

/-- The decoder of the command word: all 8 bits decide (R91, R92); a reserved word is rejected by name (R94). -/
def decode (w : Byte) : Decoded :=
  if zeroField w = 0 then
    match opOfCode (opField w) with
    | some op => .instr (Instr.of (famField w) op)
    | none => .reject .reservedOp
  else .reject .zeroField

/-- The operation code of an operation (R92). -/
def opCode : Op → BitVec 4
  | .zze => 0x0#4
  | .zzd => 0x1#4
  | .rds => 0x2#4
  | .rdr => 0x3#4
  | .r2i => 0x4#4
  | .wrs => 0x5#4
  | .i2r => 0x6#4
  | .wrr => 0x7#4
  | .rdu => 0x8#4
  | .wru => 0x9#4

/-- The family bit (R91). -/
def famBit : Fam → BitVec 1
  | .f32 => 0#1
  | .f64 => 1#1

/-- The encoder: `{000, fam, op}` (R91). -/
def encode (i : Instr) : Byte :=
  0#3 ++ famBit i.fam ++ opCode i.op

/-- The instruction the decoder reads from a table word of `nbits` bits.  A command is one 8-bit word (R91: "There is one
command length"), so what does not fit in 8 bits names no command. -/
def decodeTableWord (nbits w : Nat) : Option Instr :=
  if w % 2 ^ nbits < 256 then
    match decode (BitVec.ofNat 8 (w % 2 ^ nbits)) with
    | .instr i => some i
    | .reject _ => none
  else none

end Sys2Proof
end

