-- ==== Sys2Proof/Machine/State.lean ====
section
/-! DEFINITION. The state of the block and of the three agents around it (spec/00_scope.md R7), as plain data, the state
after reset, and the reasons a step can stop.

The block has five working registers (10_state.md R28).  The host, the byte source and the byte sink are agents outside
the block; what they do next stands in the state as data, so that one step is a function of the state.  There is no
addressed memory, no program counter, no flag and no control register (R27, R32, R33, R50). -/

namespace Sys2Proof.Machine

/-- What the host presents with a command: the interface fields `cmd`, `opnd_int`, `opnd_rep` (10_state.md R31). -/
structure Request where
  cmd : Byte
  opndInt : Word
  opndRep : RepField
deriving DecidableEq, Repr

/-- The three failure kinds (60_exceptions.md R170). -/
inductive Failure where
  | unexpectedEndOfInput
  | encodingTooLong
  | ioError (e : IoErr)
deriving DecidableEq, Repr

/-- A response, the sum type of 60_exceptions.md R175.  `okInt` carries the whole `res_int` field and `okRep` the whole
`res_rep` field (R31: a family-32 command drives the upper parts to zero). -/
inductive Response where
  | okNone
  | okInt (v : Word)
  | okRep (r : RepField)
  | fail (k : Failure)
deriving DecidableEq, Repr

/-- What the source does when it is asked for a byte (20_memory.md R52, R53; log entries 2 and 11). -/
inductive SourceMove where
  /-- Answer with the next byte, or with `End` when no byte is left. -/
  | serve
  /-- Do not answer yet (R53); meanwhile other readers of the source take `others` bytes (R63, R67). -/
  | wait (others : Nat)
  /-- Answer `End` now, whatever arrives later (R52, R213). -/
  | ended
  /-- Answer `Err(e)`; the source's own error semantics loses `lost` bytes (R179, 92_eei_decisions.md D14). -/
  | fail (e : IoErr) (lost : Nat)
deriving DecidableEq, Repr

/-- The byte source (20_memory.md R51): the bytes it delivers, in order, and how many are already delivered.  `script` says
what it does at the coming requests; when it is used up the source serves for ever, as the reference source of R70
does.  A source that is not attached never answers (70_reset_and_hazards.md R204). -/
structure Source where
  data : List Byte
  pos : Nat
  attached : Bool
  script : List SourceMove
deriving DecidableEq, Repr

/-- What the sink does when it is offered a byte (20_memory.md R56, R53; log entries 2 and 11). -/
inductive SinkMove where
  /-- Answer `Ok`: the byte is appended. -/
  | accept
  /-- Do not answer yet (R53); meanwhile other writers append `others` (R63, R67). -/
  | wait (others : List Byte)
  /-- Answer `Err(e)`; `taken` says whether the refused byte reached the sink all the same (D14). -/
  | fail (e : IoErr) (taken : Bool)
deriving DecidableEq, Repr

/-- The byte sink (20_memory.md R55): the bytes it has accepted.  When `script` is used up the sink accepts for ever, as
the reference sink of R70 does.  A sink that is not attached never answers (R204). -/
structure Sink where
  out : List Byte
  attached : Bool
  script : List SinkMove
deriving DecidableEq, Repr

/-- The state of the block and of the agents around it. -/
structure State where
  /-- `RUN` (R28), together with the command word sampled at acceptance (20_memory.md R69): `none` is `RUN = 0`, `some i` is
  `RUN = 1` with `i` the running command (log entry 4). -/
  run : Option Instr
  /-- `ACC`, the accumulator (R28). -/
  acc : Word
  /-- `REM`, the remaining value (R28). -/
  rem : Word
  /-- `GIDX`, the group index (R28). -/
  gidx : BitVec 4
  /-- `BUF[0..9]` (R28). -/
  buf : Slots
  /-- Host: the commands presented and not yet accepted, first one first (R30, R31). -/
  reqs : List Request
  /-- Host: the responses delivered so far, first one first (R8, R175; log entry 5). -/
  resps : List Response
  /-- Host: the reset input in this and the coming steps, low when used up (70_reset_and_hazards.md R200; log entry 7). -/
  resetIn : List Bool
  /-- The byte source. -/
  src : Source
  /-- The byte sink. -/
  snk : Sink
deriving DecidableEq, Repr

/-- The register `RUN` itself, one bit (R28). -/
def State.runBit (s : State) : BitVec 1 := BitVec.ofBool s.run.isSome

/-- `BUF` at its reset value: every slot `0x00` (R35). -/
def zeroSlots : Slots := Vector.replicate 10 0

/-- The machine right after reset (10_state.md R35): idle, every working register zero, no response pending.  The reset does
not touch the host, the source or the sink; what stands for them here is DESIGN CHOICE (log entry 8): nothing presented,
nothing delivered, the reference source and sink of R70, both empty. -/
def State.reset : State where
  run := none
  acc := 0
  rem := 0
  gidx := 0
  buf := zeroSlots
  reqs := []
  resps := []
  resetIn := []
  src := { data := [], pos := 0, attached := true, script := [] }
  snk := { out := [], attached := true, script := [] }

/-- The faults: none.  The spec lets nothing stop the machine with a fault: every failure is a response and leaves the block
idle (60_exceptions.md R170, R178, R180: "No operation is fatal to the process"), and a port that never answers is a wait
(20_memory.md R53).  So the type is empty and no step can answer with it: safe. -/
inductive Fault where
deriving DecidableEq, Repr

/-- The refusals. -/
inductive Refusal where
  /-- Raised by an arm of `exec` for an instruction that has no meaning yet.  Safe: nothing is claimed of it. -/
  | notModelled (mnemonic : String)
  /-- Raised by `step` when the presented command word names no operation (30_encoding.md R94: "a model refuses it by
  name").  Safe: the block performs no port transaction and produces no response. -/
  | reservedCommand (cmd : Byte) (why : Reject)
  /-- Raised at issue by `R2I` and `WRR` when no slot of the Representation operand has bit 7 clear (10_state.md R26: "a
  model refuses it at issue, before any port transaction").  Safe. -/
  | noTerminator (i : Instr)
deriving DecidableEq, Repr

end Sys2Proof.Machine
end

