-- ==== Sys2Proof/Machine/Operands.lean ====
section
/-! DEFINITION. Operand and result forms of the host interface (10_state.md R31, 30_encoding.md R93), access to the slots of
`BUF` and of a Representation field, and the fields of an encoded byte (30_encoding.md R81). -/

namespace Sys2Proof.Machine

/-- The integer operand `opnd_int[W-1:0]` (R93): a family-32 command ignores bits 63:32. -/
def intOperand (f : Fam) (q : Request) : BitVec f.W := q.opndInt.setWidth f.W

/-- The field `res_int` that carries a `W`-bit result (R31): a family-32 command drives bits 63:32 to zero. -/
def intResult (f : Fam) (v : BitVec f.W) : Word := v.setWidth 64

/-- A 64-bit working register read as the `W`-bit value it holds (R28). -/
def regValue (f : Fam) (r : Word) : BitVec f.W := r.setWidth f.W

/-- A `W`-bit value written to a 64-bit working register: a family-32 command leaves bits 63:32 zero (R28). -/
def toReg (f : Fam) (v : BitVec f.W) : Word := v.setWidth 64

/-- Slot `g` of `BUF`; there is no slot above 9 (log entry 12). -/
def slotGet (b : Slots) (g : Nat) : Byte := b[g]?.getD 0

/-- `BUF[g] <- x`; there is no slot above 9 (log entry 12). -/
def slotSet (b : Slots) (g : Nat) (x : Byte) : Slots := b.setIfInBounds g x

/-- The Representation operand as `BUF` holds it (R31, R93): slots `0 .. N-1` of `opnd_rep`; a family-32 command ignores slots
5 to 9 and leaves `BUF[5..9]` zero (R28). -/
def repOperand (f : Fam) (q : Request) : Slots :=
  Vector.ofFn fun g => if g.val < f.N then repSlot q.opndRep g.val else 0

/-- The field `res_rep` that carries slots `0 .. N-1` of `BUF` (R31): slot `g` at bits `8g+7 .. 8g`, a family-32 command drives
slots 5 to 9 to zero. -/
def repResult (f : Fam) (b : Slots) : RepField :=
  (List.range f.N).foldr (fun g r => (slotGet b g).setWidth 80 <<< (8 * g) ||| r) 0

/-- The precondition of `R2I` and `WRR` (10_state.md R26): some slot in `0 .. N-1` has bit 7 clear. -/
def hasTerminator (f : Fam) (r : RepField) : Bool :=
  (List.range f.N).any fun g => !(repSlot r g).msb

/-- Field `C` of an encoded byte (30_encoding.md R81): bit 7, the continuation flag. -/
def continues (b : Byte) : Bool := b.getLsbD 7

/-- Field `G` of an encoded byte (R81): bits 6:0, the group. -/
def groupOf (b : Byte) : Group := b.extractLsb' 0 7

/-- The encoded byte `{C, G}` (R81). -/
def mkByte (c : Bool) (g : Group) : Byte := BitVec.ofBool c ++ g

end Sys2Proof.Machine
end

