-- ==== Sys2Proof/Machine/Flags.lean ====
section
/-! DEFINITION. The block has no flag register and no condition codes (10_state.md R32): the outcome of a command is in its
response only.  This file gives the interface fields of a response, `status`, `io_code`, `res_int`, `res_rep`
(10_state.md R31, 60_exceptions.md R171). -/

namespace Sys2Proof.Machine

/-- The failure's status code (60_exceptions.md R171). -/
def failureStatus : Failure → BitVec 2
  | .unexpectedEndOfInput => 1
  | .encodingTooLong => 2
  | .ioError _ => 3

/-- Field `status` (R171): 0 is `Ok`. -/
def statusField : Response → BitVec 2
  | .okNone | .okInt _ | .okRep _ => 0
  | .fail k => failureStatus k

/-- Field `io_code` (R31, R171): the error value as handed over by the port when `status = 3`, not meaningful otherwise
(93_implementation_defined.md U10), which is said here by giving no value. -/
def ioCodeField : Response → Option IoErr
  | .fail (.ioError e) => some e
  | .okNone | .okInt _ | .okRep _ | .fail .unexpectedEndOfInput | .fail .encodingTooLong => none

/-- Field `res_int` (R31): zero when the command has no integer result or fails. -/
def resIntField : Response → Word
  | .okInt v => v
  | .okNone | .okRep _ | .fail _ => 0

/-- Field `res_rep` (R31): zero when the command has no Representation result or fails. -/
def resRepField : Response → RepField
  | .okRep r => r
  | .okNone | .okInt _ | .fail _ => 0

/-- The response fields as last delivered; none before the first response, when the spec gives them no meaning (R35,
93_implementation_defined.md U9). -/
def lastResponse (s : State) : Option Response := s.resps.getLast?

end Sys2Proof.Machine
end

