-- ==== Sys2Proof/Machine/Codec.lean ====
section
/-! DEFINITION. The arithmetic of the codec: the zigzag mapper (40_zigzag.md), the placing and assembling of groups
(30_encoding.md R82) and the group sequence of the encoder (42_encoder.md R141).  All of it is on `W`-bit vectors and
wraps modulo `2^W` (40_zigzag.md R116). -/

namespace Sys2Proof.Machine

/-- `zze_W`, signed to unsigned, the case form (40_zigzag.md R111). -/
def zze {w : Nat} (v : BitVec w) : BitVec w :=
  if v.msb then
    let n := 0 - v
    (n <<< 1) - 1
  else v <<< 1

/-- `zzd_W`, unsigned to signed, the case form (40_zigzag.md R112); the shift is logical. -/
def zzd {w : Nat} (u : BitVec w) : BitVec w :=
  let h := u >>> 1
  if u.getLsbD 0 then (0 - h) - 1 else h

/-- `trunc_W(zext(b[6:0]) << 7g)`: the group of byte `b` at group index `g` (R82, 41_decoder.md R121 step 3).  Bits shifted
beyond `W` are dropped (R89). -/
def placeGroup (w : Nat) (g : Nat) (b : Byte) : BitVec w :=
  (groupOf b).setWidth w <<< (7 * g)

/-- `ACC <- ACC | trunc_W(zext(b[6:0]) << 7g)` (41_decoder.md R121 step 3). -/
def accumulate (f : Fam) (acc : Word) (g : Nat) (b : Byte) : Word :=
  toReg f (regValue f acc ||| placeGroup f.W g b)

/-- The groups of a byte list placed from group index `g` on, joined by bitwise or. -/
def assembleFrom (w : Nat) : Nat → List Byte → BitVec w
  | _, [] => 0
  | g, b :: bs => placeGroup w g b ||| assembleFrom w (g + 1) bs

/-- The value of a byte list (30_encoding.md R82): first byte first, first byte is group 0. -/
def assemble (w : Nat) (bs : List Byte) : BitVec w := assembleFrom w 0 bs

/-- The low seven bits of the remaining value (42_encoder.md R141: `grp = REM[6:0]`). -/
def lowGroup {w : Nat} (r : BitVec w) : Group := r.extractLsb' 0 7

/-- What is left after one group (R141, R142): a logical shift right by 7 in width `W`. -/
def nextRem {w : Nat} (r : BitVec w) : BitVec w := r >>> 7

/-- The byte the encoder forms from the remaining value (R141): the continuation bit is set unless nothing is left. -/
def encByte {w : Nat} (r : BitVec w) : Byte := mkByte (nextRem r != 0) (lowGroup r)

/-- `ENC_W` with at most `n` groups (R141). -/
def encGroups {w : Nat} : Nat → BitVec w → List Byte
  | 0, _ => []
  | n + 1, r => encByte r :: (if nextRem r = 0 then [] else encGroups n (nextRem r))

/-- `ENC_W(v)` (R141): `N` groups are always enough (R143). -/
def enc (f : Fam) (v : BitVec f.W) : List Byte := encGroups f.N v

end Sys2Proof.Machine
end

