-- ==== Sys2Proof/Machine/Ops.lean ====
section
/-! DEFINITION. The named operations over the state: the two port primitives `SrcRead` and `SnkWrite` (20_memory.md R52,
R56), clearing the working registers (10_state.md R29), reset (70_reset_and_hazards.md R200), delivering a response,
raising a failure (60_exceptions.md R175, R178), and the sequencing of a command: acceptance (10_state.md R30), its
beats, waiting. -/

namespace Sys2Proof.Machine

/-! ### The source port -/

/-- The answers of the source (20_memory.md R52). -/
inductive SourceAnswer where
  | byte (b : Byte)
  | eoi
  | err (e : IoErr)
deriving DecidableEq, Repr

/-- The source answers from its data (R52, R70): the next byte, consumed, or `End` with the position unchanged. -/
def srcServe (src : Source) : SourceAnswer × Source :=
  match src.data[src.pos]? with
  | some b => (.byte b, { src with pos := src.pos + 1 })
  | none => (.eoi, src)

/-- `SrcRead()` (R52): one request for one byte.  No answer (`none`) means that the block waits (R53, R204). -/
def srcRead (src : Source) : Option SourceAnswer × Source :=
  if src.attached then
    match src.script with
    | [] => (some (srcServe src).1, (srcServe src).2)
    | .serve :: rest =>
      (some (srcServe { src with script := rest }).1, (srcServe { src with script := rest }).2)
    | .wait others :: rest => (none, { src with script := rest, pos := src.pos + others })
    | .ended :: rest => (some .eoi, { src with script := rest })
    | .fail e lost :: rest => (some (.err e), { src with script := rest, pos := src.pos + lost })
  else (none, src)

/-! ### The sink port -/

/-- The answers of the sink (20_memory.md R56). -/
inductive SinkAnswer where
  | ok
  | err (e : IoErr)
deriving DecidableEq, Repr

/-- `SnkWrite(b)` (R56): one byte offered.  No answer (`none`) means that the block waits, still offering the same byte
(R53, 42_encoder.md R149). -/
def snkWrite (snk : Sink) (b : Byte) : Option SinkAnswer × Sink :=
  if snk.attached then
    match snk.script with
    | [] => (some .ok, { snk with out := snk.out ++ [b] })
    | .accept :: rest => (some .ok, { snk with script := rest, out := snk.out ++ [b] })
    | .wait others :: rest => (none, { snk with script := rest, out := snk.out ++ others })
    | .fail e taken :: rest =>
      (some (.err e), { snk with script := rest, out := if taken then snk.out ++ [b] else snk.out })
  else (none, snk)

/-! ### Ending a command -/

/-- The working registers return to their idle values and `RUN <- 0` (10_state.md R29). -/
def clearWork (s : State) : State :=
  { s with run := none, acc := 0, rem := 0, gidx := 0, buf := zeroSlots }

/-- The reset input (70_reset_and_hazards.md R200, R202): the working registers are cleared, a running command is aborted
with no response, and the source and the sink keep what was transferred. -/
def resetBlock (s : State) : State := clearWork s

/-- A command ends: the registers are cleared (R29) and its response is delivered (20_memory.md R66). -/
def complete (r : Response) (s : State) : State :=
  { clearWork s with resps := s.resps ++ [r] }

/-- `raise K(info)` (60_exceptions.md R175, R178): the command stops, the working registers are cleared, and the response is
the failure; nothing is saved and control goes nowhere.  There is nothing to return from: the block is idle (R180). -/
def raise (k : Failure) (s : State) : State := complete (.fail k) s

/-! ### Running a command -/

/-- What one beat (one port transaction, or one step of a conversion) leads to. -/
inductive Beat where
  /-- The command goes on with its next beat. -/
  | go (s : State)
  /-- The port has not answered: the command waits. -/
  | wait (s : State)
  /-- The command has ended. -/
  | done (s : State)
deriving DecidableEq, Repr

/-- Run beats, at most `fuel` of them, until the command waits or ends. -/
def runBeats (beat : State → Beat) : Nat → State → State
  | 0, s => s
  | fuel + 1, s =>
    match beat s with
    | .go s' => runBeats beat fuel s'
    | .wait s' => s'
    | .done s' => s'

/-- The most beats a command of a family makes: `N + 1` reads (30_encoding.md R96). -/
def beatBound (f : Fam) : Nat := f.N + 1

/-- Acceptance (10_state.md R28, R30): the presented command is taken, `RUN <- 1`, the other registers are at their idle
values (R29). -/
def accept (i : Instr) (rest : List Request) (s : State) : State :=
  { clearWork s with run := some i, reqs := rest }

/-- A command with beats.  Idle, with a command presented: it is checked at issue, accepted, its registers are loaded, and it
runs until it ends or waits for its port.  Running already: it goes on where it waited.  A command offered while another
runs is held (R30), and with nothing presented there is nothing to accept: the state stays (log entry 10). -/
def runCommand (i : Instr) (check : Request → Option Refusal) (load : Request → State → State)
    (beat : State → Beat) (s : State) : Host.Outcome State Fault Refusal :=
  match s.run with
  | some j => .next (if j = i then runBeats beat (beatBound i.fam) s else s)
  | none =>
    match s.reqs with
    | [] => .next s
    | q :: rest =>
      match check q with
      | some r => .refused r
      | none => .next (runBeats beat (beatBound i.fam) (load q (accept i rest s)))

/-- A command that is complete in one step, with no port transaction and no working register (40_zigzag.md R111, R112). -/
def mapCommand (value : Request → Response) (s : State) : Host.Outcome State Fault Refusal :=
  match s.run with
  | some _ => .next s
  | none =>
    match s.reqs with
    | [] => .next s
    | q :: rest => .next (complete (value q) { s with reqs := rest })

/-- No check at issue. -/
def noCheck (_ : Request) : Option Refusal := none

/-- The check of `R2I` and `WRR` at issue (10_state.md R26). -/
def checkTerminator (i : Instr) (q : Request) : Option Refusal :=
  if hasTerminator i.fam q.opndRep then none else some (.noTerminator i)

/-- A decoder command loads nothing at issue: `ACC`, `GIDX` and `BUF` already hold zero (41_decoder.md R126). -/
def loadNothing (_ : Request) (s : State) : State := s

/-- `REM <- v` at issue (42_encoder.md R149). -/
def loadRem (f : Fam) (value : Request → BitVec f.W) (q : Request) (s : State) : State :=
  { s with rem := toReg f (value q) }

/-- `BUF <- R` at issue (42_encoder.md R147; 10_state.md R28 for `R2I`). -/
def loadBuf (f : Fam) (q : Request) (s : State) : State :=
  { s with buf := repOperand f q }

/-! ### The beats -/

/-- One beat of the loop `DEC_W` (41_decoder.md R121, R126, R176): read; then the length check; then accumulate and store; then
the continuation bit decides.  `finish` forms the response from `ACC` and `BUF`. -/
def decodeBeat (f : Fam) (finish : BitVec f.W → Slots → Response) (s : State) : Beat :=
  match srcRead s.src with
  | (none, src) => .wait { s with src := src }
  | (some .eoi, src) => .done (raise .unexpectedEndOfInput { s with src := src })
  | (some (.err e), src) => .done (raise (.ioError e) { s with src := src })
  | (some (.byte b), src) =>
    if s.gidx.toNat = f.N then .done (raise .encodingTooLong { s with src := src })
    else
      let acc := accumulate f s.acc s.gidx.toNat b
      let buf := slotSet s.buf s.gidx.toNat b
      if continues b then .go { s with src := src, acc := acc, buf := buf, gidx := s.gidx + 1 }
      else .done (complete (finish (regValue f acc) buf) { s with src := src })

/-- One beat of `WRS` or `WRU` (42_encoder.md R145, R149): form the byte, offer it, and move on only when it is accepted. -/
def encodeBeat (f : Fam) (s : State) : Beat :=
  let r := regValue f s.rem
  match snkWrite s.snk (encByte r) with
  | (none, snk) => .wait { s with snk := snk }
  | (some (.err e), snk) => .done (raise (.ioError e) { s with snk := snk })
  | (some .ok, snk) =>
    if nextRem r = 0 then .done (complete .okNone { s with snk := snk })
    else .go { s with snk := snk, rem := toReg f (nextRem r), gidx := s.gidx + 1 }

/-- One beat of `WRR` (42_encoder.md R147, R149): the stored byte as it stands. -/
def writeBeat (s : State) : Beat :=
  let b := slotGet s.buf s.gidx.toNat
  match snkWrite s.snk b with
  | (none, snk) => .wait { s with snk := snk }
  | (some (.err e), snk) => .done (raise (.ioError e) { s with snk := snk })
  | (some .ok, snk) =>
    if continues b then .go { s with snk := snk, gidx := s.gidx + 1 }
    else .done (complete .okNone { s with snk := snk })

/-- One step of `R2I` (41_decoder.md R128): the group of `BUF[GIDX]` goes into `ACC`. -/
def foldStep (f : Fam) (s : State) : Beat :=
  let b := slotGet s.buf s.gidx.toNat
  let acc := accumulate f s.acc s.gidx.toNat b
  if continues b then .go { s with acc := acc, gidx := s.gidx + 1 }
  else .done (complete (.okInt (intResult f (regValue f acc))) s)

/-- One step of `I2R` (42_encoder.md R146): the next byte of `ENC_W` goes into `BUF[GIDX]`. -/
def fillStep (f : Fam) (s : State) : Beat :=
  let r := regValue f s.rem
  let buf := slotSet s.buf s.gidx.toNat (encByte r)
  if nextRem r = 0 then .done (complete (.okRep (repResult f buf)) s)
  else .go { s with buf := buf, rem := toReg f (nextRem r), gidx := s.gidx + 1 }

end Sys2Proof.Machine
end

