-- ==== Sys2Proof/Machine/Decoder.lean ====
section
/-! DEFINITION. The meanings of the decoder's commands `RDS`, `RDR`, `R2I` (41_decoder.md). -/

namespace Sys2Proof.Machine

/-- `RDS.32` (41_decoder.md R124): `res_int` is the accumulator. -/
def execRds32 (s : State) : Host.Outcome State Fault Refusal :=
  runCommand .rds32 noCheck loadNothing (decodeBeat .f32 fun acc _ => .okInt (intResult .f32 acc)) s

/-- `RDR.32` (41_decoder.md R125): `res_rep` is the buffer. -/
def execRdr32 (s : State) : Host.Outcome State Fault Refusal :=
  runCommand .rdr32 noCheck loadNothing (decodeBeat .f32 fun _ buf => .okRep (repResult .f32 buf)) s

/-- `R2I.32` (41_decoder.md R128). -/
def execR2i32 (s : State) : Host.Outcome State Fault Refusal :=
  runCommand .r2i32 (checkTerminator .r2i32) (loadBuf .f32) (foldStep .f32) s

/-- `RDS.64` (41_decoder.md R124): `res_int` is the accumulator. -/
def execRds64 (s : State) : Host.Outcome State Fault Refusal :=
  runCommand .rds64 noCheck loadNothing (decodeBeat .f64 fun acc _ => .okInt (intResult .f64 acc)) s

/-- `RDR.64` (41_decoder.md R125): `res_rep` is the buffer. -/
def execRdr64 (s : State) : Host.Outcome State Fault Refusal :=
  runCommand .rdr64 noCheck loadNothing (decodeBeat .f64 fun _ buf => .okRep (repResult .f64 buf)) s

/-- `R2I.64` (41_decoder.md R128). -/
def execR2i64 (s : State) : Host.Outcome State Fault Refusal :=
  runCommand .r2i64 (checkTerminator .r2i64) (loadBuf .f64) (foldStep .f64) s

end Sys2Proof.Machine
end

