-- ==== Sys2Proof/Machine/Encoder.lean ====
section
/-! DEFINITION. The meanings of the encoder's commands `WRS`, `I2R`, `WRR` (42_encoder.md). -/

namespace Sys2Proof.Machine

/-- `WRS.32` (42_encoder.md R145). -/
def execWrs32 (s : State) : Host.Outcome State Fault Refusal :=
  runCommand .wrs32 noCheck (loadRem .f32 (intOperand .f32)) (encodeBeat .f32) s

/-- `I2R.32` (42_encoder.md R146). -/
def execI2r32 (s : State) : Host.Outcome State Fault Refusal :=
  runCommand .i2r32 noCheck (loadRem .f32 (intOperand .f32)) (fillStep .f32) s

/-- `WRR.32` (42_encoder.md R147). -/
def execWrr32 (s : State) : Host.Outcome State Fault Refusal :=
  runCommand .wrr32 (checkTerminator .wrr32) (loadBuf .f32) writeBeat s

/-- `WRS.64` (42_encoder.md R145). -/
def execWrs64 (s : State) : Host.Outcome State Fault Refusal :=
  runCommand .wrs64 noCheck (loadRem .f64 (intOperand .f64)) (encodeBeat .f64) s

/-- `I2R.64` (42_encoder.md R146). -/
def execI2r64 (s : State) : Host.Outcome State Fault Refusal :=
  runCommand .i2r64 noCheck (loadRem .f64 (intOperand .f64)) (fillStep .f64) s

/-- `WRR.64` (42_encoder.md R147). -/
def execWrr64 (s : State) : Host.Outcome State Fault Refusal :=
  runCommand .wrr64 (checkTerminator .wrr64) (loadBuf .f64) writeBeat s

end Sys2Proof.Machine
end

