-- ==== Sys2Proof/Machine/Fused.lean ====
section
/-! DEFINITION. The meanings of the fused unsigned commands `RDU`, `WRU` (43_fused_unsigned.md): the signed commands composed
with the zigzag mapper, in the direction 90_conflicts.md C1 fixes. -/

namespace Sys2Proof.Machine

/-- `RDU.32` (43_fused_unsigned.md R161): `zze_W` of the decoder's result. -/
def execRdu32 (s : State) : Host.Outcome State Fault Refusal :=
  runCommand .rdu32 noCheck loadNothing (decodeBeat .f32 fun acc _ => .okInt (intResult .f32 (zze acc))) s

/-- `WRU.32` (43_fused_unsigned.md R162): the encoder on `zzd_W` of the operand. -/
def execWru32 (s : State) : Host.Outcome State Fault Refusal :=
  runCommand .wru32 noCheck (loadRem .f32 fun q => zzd (intOperand .f32 q)) (encodeBeat .f32) s

/-- `RDU.64` (43_fused_unsigned.md R161): `zze_W` of the decoder's result. -/
def execRdu64 (s : State) : Host.Outcome State Fault Refusal :=
  runCommand .rdu64 noCheck loadNothing (decodeBeat .f64 fun acc _ => .okInt (intResult .f64 (zze acc))) s

/-- `WRU.64` (43_fused_unsigned.md R162): the encoder on `zzd_W` of the operand. -/
def execWru64 (s : State) : Host.Outcome State Fault Refusal :=
  runCommand .wru64 noCheck (loadRem .f64 fun q => zzd (intOperand .f64 q)) (encodeBeat .f64) s

end Sys2Proof.Machine
end

