-- ==== Sys2Proof/Machine/Zigzag.lean ====
section
/-! DEFINITION. The meanings of the zigzag mapper's commands (40_zigzag.md). -/

namespace Sys2Proof.Machine

/-- `ZZE.32` (40_zigzag.md R111). -/
def execZze32 (s : State) : Host.Outcome State Fault Refusal :=
  mapCommand (fun q => .okInt (intResult .f32 (zze (intOperand .f32 q)))) s

/-- `ZZD.32` (40_zigzag.md R112). -/
def execZzd32 (s : State) : Host.Outcome State Fault Refusal :=
  mapCommand (fun q => .okInt (intResult .f32 (zzd (intOperand .f32 q)))) s

/-- `ZZE.64` (40_zigzag.md R111). -/
def execZze64 (s : State) : Host.Outcome State Fault Refusal :=
  mapCommand (fun q => .okInt (intResult .f64 (zze (intOperand .f64 q)))) s

/-- `ZZD.64` (40_zigzag.md R112). -/
def execZzd64 (s : State) : Host.Outcome State Fault Refusal :=
  mapCommand (fun q => .okInt (intResult .f64 (zzd (intOperand .f64 q)))) s

end Sys2Proof.Machine
end

