-- ==== Sys2Proof/Machine/Dispatch.lean ====
section
/-! DEFINITION. The dispatch: one arm per command, each a call of that command's own meaning. -/

namespace Sys2Proof.Machine

def exec (i : Instr) (s : State) : Host.Outcome State Fault Refusal :=
  match i with
  | .zze32 => Sys2Proof.Machine.execZze32 s
  | .zzd32 => Sys2Proof.Machine.execZzd32 s
  | .rds32 => Sys2Proof.Machine.execRds32 s
  | .rdr32 => Sys2Proof.Machine.execRdr32 s
  | .r2i32 => Sys2Proof.Machine.execR2i32 s
  | .wrs32 => Sys2Proof.Machine.execWrs32 s
  | .i2r32 => Sys2Proof.Machine.execI2r32 s
  | .wrr32 => Sys2Proof.Machine.execWrr32 s
  | .rdu32 => Sys2Proof.Machine.execRdu32 s
  | .wru32 => Sys2Proof.Machine.execWru32 s
  | .zze64 => Sys2Proof.Machine.execZze64 s
  | .zzd64 => Sys2Proof.Machine.execZzd64 s
  | .rds64 => Sys2Proof.Machine.execRds64 s
  | .rdr64 => Sys2Proof.Machine.execRdr64 s
  | .r2i64 => Sys2Proof.Machine.execR2i64 s
  | .wrs64 => Sys2Proof.Machine.execWrs64 s
  | .i2r64 => Sys2Proof.Machine.execI2r64 s
  | .wrr64 => Sys2Proof.Machine.execWrr64 s
  | .rdu64 => Sys2Proof.Machine.execRdu64 s
  | .wru64 => Sys2Proof.Machine.execWru64 s

end Sys2Proof.Machine
end

