-- ==== Sys2Proof/Machine/Step.lean ====
section
/-! DEFINITION. One step of the machine: the reset input first (70_reset_and_hazards.md R200, R202); then the running command
goes on (20_memory.md R53), or the presented command is decoded and executed (10_state.md R30, 30_encoding.md R94). -/

namespace Sys2Proof.Machine

/-- A step with the reset input low.  A running command goes on; a command presented meanwhile is held (10_state.md R30).
Idle, with nothing presented, the block has no step: the state stays. -/
def stepCommand (s : State) : Host.Outcome State Fault Refusal :=
  match s.run with
  | some i => exec i s
  | none =>
    match s.reqs with
    | [] => .next s
    | q :: _ =>
      match decode q.cmd with
      | .instr i => exec i s
      | .reject why => .refused (.reservedCommand q.cmd why)

/-- One step.  The reset input has priority, idle or running (R200 to R202). -/
def step (s : State) : Host.Outcome State Fault Refusal :=
  match s.resetIn with
  | true :: rest => .next (resetBlock { s with resetIn := rest })
  | false :: rest => stepCommand { s with resetIn := rest }
  | [] => stepCommand s

/-- The state in which the next step runs the command word `w`: the block idle, the reset input low, and `w` presented as the
next command, with the operands that are presented now (zero where nothing is).  The block fetches no instruction
(10_state.md R27): the host's presenting a command stands for the fetch (log entry 9). -/
def State.withFetchWord (s : State) (nbits w : Nat) : State :=
  { clearWork s with
    resetIn := []
    reqs :=
      { s.reqs.headD { cmd := 0, opndInt := 0, opndRep := 0 } with cmd := BitVec.ofNat 8 (w % 2 ^ nbits) } ::
        s.reqs.tail }

end Sys2Proof.Machine
end

