-- ==== Sys2Proof/Safety.lean ====
section
/-! DEFINITION. What a good state is, and the terms in which the statements speak: the bytes a port takes or gives, the
states in which a command has ended or waits, and the invariant of the machine. -/

namespace Sys2Proof.Machine

/-! ### What the ports do with a list of bytes -/

/-- The source after it has answered the next requests with exactly the bytes `bs`, one at a time; none when it answers
otherwise (20_memory.md R52). -/
def servesTo : Source → List Byte → Option Source
  | src, [] => some src
  | src, b :: bs => if (srcRead src).1 = some (.byte b) then servesTo (srcRead src).2 bs else none

/-- The sink after it has answered `Ok` to each of the bytes `bs`, offered one at a time; none when it answers otherwise
(20_memory.md R56). -/
def acceptsTo : Sink → List Byte → Option Sink
  | snk, [] => some snk
  | snk, b :: bs => if (snkWrite snk b).1 = some .ok then acceptsTo (snkWrite snk b).2 bs else none

/-! ### Byte lists and slots -/

/-- The slots that hold a byte list from slot 0 up, the others `0x00` (10_state.md R22: "Trailing unused slots are
zero-filled"). -/
def padded (bs : List Byte) : Slots := Vector.ofFn fun g => bs.getD g.val 0

/-- A byte list up to and including its first byte with bit 7 clear (30_encoding.md R83). -/
def upToTerminator : List Byte → List Byte
  | [] => []
  | b :: bs => b :: (if continues b then upToTerminator bs else [])

/-- The bytes of a Representation operand that `R2I` and `WRR` consult (10_state.md R26): slots 0 up to the terminator. -/
def repBytes (f : Fam) (r : RepField) : List Byte :=
  upToTerminator ((List.range f.N).map (repSlot r))

/-! ### States -/

/-- The state in which the accepted command of `s` has ended with response `r`: block idle with every working register at
its reset value (10_state.md R29), `rest` still presented, and the streams as given.  Every field is named, so that the
frame can be read off. -/
def ended (s : State) (rest : List Request) (src : Source) (snk : Sink) (r : Response) : State where
  run := none
  acc := 0
  rem := 0
  gidx := 0
  buf := zeroSlots
  reqs := rest
  resps := s.resps ++ [r]
  resetIn := s.resetIn
  src := src
  snk := snk

/-- The state in which decoder command `i` has read the bytes `bs`, all with bit 7 set, and waits for the source
(41_decoder.md R126). -/
def waitingRead (i : Instr) (s : State) (rest : List Request) (bs : List Byte) (src : Source) : State where
  run := some i
  acc := toReg i.fam (assemble i.fam.W bs)
  rem := 0
  gidx := BitVec.ofNat 4 bs.length
  buf := padded bs
  reqs := rest
  resps := s.resps
  resetIn := s.resetIn
  src := src
  snk := s.snk

/-- The state in which `WRS` or `WRU` has written `n` bytes of the encoding of `v` and waits for the sink
(42_encoder.md R149). -/
def waitingEncode (i : Instr) (s : State) (rest : List Request) (v : BitVec i.fam.W) (n : Nat) (snk : Sink) :
    State where
  run := some i
  acc := 0
  rem := toReg i.fam (v >>> (7 * n))
  gidx := BitVec.ofNat 4 n
  buf := zeroSlots
  reqs := rest
  resps := s.resps
  resetIn := s.resetIn
  src := s.src
  snk := snk

/-- The state in which `WRR` has written `n` bytes of its operand and waits for the sink (42_encoder.md R149). -/
def waitingWrite (i : Instr) (s : State) (rest : List Request) (buf : Slots) (n : Nat) (snk : Sink) : State where
  run := some i
  acc := 0
  rem := 0
  gidx := BitVec.ofNat 4 n
  buf := buf
  reqs := rest
  resps := s.resps
  resetIn := s.resetIn
  src := s.src
  snk := snk

/-! ### Outcomes of the stream commands -/

/-- The outcome `o` of a decoder command `i` that has read `bs` (all with bit 7 set) and stands before its next request to
the source `m`: each clause is one answer of the source (41_decoder.md R121, R126; 60_exceptions.md R176).  `finish` forms
the response from the accepted byte list.  The last clause, no answer, is a wait of the model: log entries 3 and 6. -/
def readOutcome (i : Instr) (finish : List Byte → Response) (s : State) (rest : List Request) (bs : List Byte)
    (m : Source) (o : Host.Outcome State Fault Refusal) : Prop :=
  (∀ src, srcRead m = (some .eoi, src) → o = .next (ended s rest src s.snk (.fail .unexpectedEndOfInput))) ∧
  (∀ e src, srcRead m = (some (.err e), src) → o = .next (ended s rest src s.snk (.fail (.ioError e)))) ∧
  (∀ b src, srcRead m = (some (.byte b), src) → bs.length = i.fam.N →
    o = .next (ended s rest src s.snk (.fail .encodingTooLong))) ∧
  (∀ b src, srcRead m = (some (.byte b), src) → bs.length < i.fam.N → continues b = false →
    o = .next (ended s rest src s.snk (finish (bs ++ [b])))) ∧
  (∀ src, srcRead m = (none, src) → o = .next (waitingRead i s rest bs src))

/-- The outcome `o` of an encoder command that stands before offering byte `b` to the sink `m`, with `post` still to come
after it: each clause is one answer of the sink (42_encoder.md R149).  The last clause, no answer, is a wait of the model:
log entries 3 and 6. -/
def writeOutcome (waiting : Sink → State) (s : State) (rest : List Request) (b : Byte) (post : List Byte)
    (m : Sink) (o : Host.Outcome State Fault Refusal) : Prop :=
  (∀ snk, snkWrite m b = (some .ok, snk) → post = [] → o = .next (ended s rest s.src snk .okNone)) ∧
  (∀ e snk, snkWrite m b = (some (.err e), snk) → o = .next (ended s rest s.src snk (.fail (.ioError e)))) ∧
  (∀ snk, snkWrite m b = (none, snk) → o = .next (waiting snk))

/-! ### The invariant -/

/-- A waiting decoder command (41_decoder.md R126): `GIDX` bytes with bit 7 set stand in `BUF`, the slots above hold `0x00`,
and `ACC` is the value assembled from them. -/
def DecodeInv (f : Fam) (s : State) : Prop :=
  s.gidx.toNat ≤ f.N ∧ s.rem = 0 ∧
  (∀ g, g < s.gidx.toNat → continues (slotGet s.buf g) = true) ∧
  s.buf = padded (s.buf.toList.take s.gidx.toNat) ∧
  s.acc = toReg f (assemble f.W (s.buf.toList.take s.gidx.toNat))

/-- A waiting `WRS` or `WRU` (42_encoder.md R143, R149): `REM` has lost seven bits per byte written. -/
def EncodeInv (f : Fam) (s : State) : Prop :=
  s.gidx.toNat < f.N ∧ s.acc = 0 ∧ s.buf = zeroSlots ∧ s.rem.toNat < 2 ^ (f.W - 7 * s.gidx.toNat)

/-- A waiting `WRR` (42_encoder.md R147, R149): the terminator still stands before it in slots `GIDX .. N-1`. -/
def WriteInv (f : Fam) (s : State) : Prop :=
  s.acc = 0 ∧ s.rem = 0 ∧
  (∃ g, s.gidx.toNat ≤ g ∧ g < f.N ∧ continues (slotGet s.buf g) = false) ∧
  (∀ g, f.N ≤ g → slotGet s.buf g = 0)

/-- The register discipline of the block (10_state.md R28, R29).  Idle: every working register holds its reset value.
Running at the end of a step: the command is one that can wait for a port, and its registers hold what it has done. -/
def RegInv (s : State) : Prop :=
  match s.run with
  | none => s.acc = 0 ∧ s.rem = 0 ∧ s.gidx = 0 ∧ s.buf = zeroSlots
  | some i =>
    match i.op with
    | .rds | .rdr | .rdu => DecodeInv i.fam s
    | .wrs | .wru => EncodeInv i.fam s
    | .wrr => WriteInv i.fam s
    | .zze | .zzd | .r2i | .i2r => False

/-- The source answers every request: it is attached and its script holds no wait (70_reset_and_hazards.md R221: "provided
every transaction is answered"). -/
def sourceAnswers (src : Source) : Prop :=
  src.attached = true ∧ ∀ n, SourceMove.wait n ∉ src.script

/-- The sink answers every request. -/
def sinkAnswers (snk : Sink) : Prop :=
  snk.attached = true ∧ ∀ l, SinkMove.wait l ∉ snk.script

end Sys2Proof.Machine
end

