-- ==== Sys2Proof/Certificates/Slice0/Obligations.lean ====
section
/-! DEFINITION. The statements for the provers. -/

open Sys2Proof Sys2Proof.Machine

/-! ### The command word -/

/-- 30_encoding.md R91, R92: the twenty command words of the table decode to their commands. -/
def Obligations.CommandWordTable : Prop :=
  decode 0x00#8 = .instr .zze32 ∧ decode 0x01#8 = .instr .zzd32 ∧ decode 0x02#8 = .instr .rds32 ∧
  decode 0x03#8 = .instr .rdr32 ∧ decode 0x04#8 = .instr .r2i32 ∧ decode 0x05#8 = .instr .wrs32 ∧
  decode 0x06#8 = .instr .i2r32 ∧ decode 0x07#8 = .instr .wrr32 ∧ decode 0x08#8 = .instr .rdu32 ∧
  decode 0x09#8 = .instr .wru32 ∧ decode 0x10#8 = .instr .zze64 ∧ decode 0x11#8 = .instr .zzd64 ∧
  decode 0x12#8 = .instr .rds64 ∧ decode 0x13#8 = .instr .rdr64 ∧ decode 0x14#8 = .instr .r2i64 ∧
  decode 0x15#8 = .instr .wrs64 ∧ decode 0x16#8 = .instr .i2r64 ∧ decode 0x17#8 = .instr .wrr64 ∧
  decode 0x18#8 = .instr .rdu64 ∧ decode 0x19#8 = .instr .wru64

/-- 30_encoding.md R91, R92: decoding matches all eight bits; a word decodes to a command exactly when it is the command's
encoding. -/
def Obligations.DecodeMatchesAllEightBits : Prop :=
  ∀ (w : Byte) (i : Instr), decode w = .instr i ↔ w = encode i

/-- 30_encoding.md R94: a word with `cmd[7:5]` not `000` or `op` in `0xA .. 0xF` names no operation, no other word is reserved,
and a presented reserved word is refused by name. -/
def Obligations.ReservedWordsRefused : Prop :=
  (∀ w : Byte, (∃ why, decode w = .reject why) ↔
    (w.extractLsb' 5 3 ≠ 0 ∨ 0xA ≤ (w.extractLsb' 0 4).toNat)) ∧
  ∀ (s : State) (q : Request) (rest : List Request),
    s.resetIn.head? ≠ some true → s.run = none → s.reqs = q :: rest →
    (q.cmd.extractLsb' 5 3 ≠ 0 ∨ 0xA ≤ (q.cmd.extractLsb' 0 4).toNat) →
    ∃ why, step s = .refused (.reservedCommand q.cmd why)

/-! ### Steps, reset -/

/-- 10_state.md R30, 20_memory.md R53: with the reset input low, a step runs the presented command when the block is idle,
and lets the running command go on otherwise; idle with nothing presented, nothing changes.
The model's choices: that each step uses up one level of the reset input (log entry 7), and that an idle block with nothing
presented answers a next state (log entry 9). -/
def Obligations.StepRunsTheCommand : Prop :=
  ∀ s : State, s.resetIn.head? ≠ some true →
    (∀ i q rest, s.run = none → s.reqs = q :: rest → decode q.cmd = .instr i →
      step s = exec i { s with resetIn := s.resetIn.tail }) ∧
    (∀ i, s.run = some i → step s = exec i { s with resetIn := s.resetIn.tail }) ∧
    (s.run = none → s.reqs = [] → step s = .next { s with resetIn := s.resetIn.tail })

/-- The model's stand-in for a fetch (log entry 9): in `s.withFetchWord 8 w` the block is idle, `w` is the presented command
word, the operands are those presented before, and the very next step runs the command that `w` names. -/
def Obligations.FetchWordIsRunNext : Prop :=
  ∀ (s : State) (w : Nat) (i : Instr), decode (BitVec.ofNat 8 (w % 2 ^ 8)) = .instr i →
    (s.withFetchWord 8 w).run = none ∧
    (s.withFetchWord 8 w).reqs.head?.map (·.cmd) = some (encode i) ∧
    (∀ q rest, s.reqs = q :: rest → (s.withFetchWord 8 w).reqs = { q with cmd := encode i } :: rest) ∧
    (s.withFetchWord 8 w).src = s.src ∧ (s.withFetchWord 8 w).snk = s.snk ∧
    (s.withFetchWord 8 w).resps = s.resps ∧
    step (s.withFetchWord 8 w) = exec i (s.withFetchWord 8 w)

/-- 70_reset_and_hazards.md R202: the reset input, idle or running, clears the working registers and aborts the command; no
response is delivered, the streams keep what was transferred.  That the presented commands stay presented and that the step
uses up one level of the reset input are the model's choices (log entry 7). -/
def Obligations.ResetAbortsWithoutResponse : Prop :=
  ∀ (s : State) (rest : List Bool), s.resetIn = true :: rest →
    step s = .next
      { run := none, acc := 0, rem := 0, gidx := 0, buf := Vector.replicate 10 0x00#8,
        reqs := s.reqs, resps := s.resps, resetIn := rest, src := s.src, snk := s.snk }

/-- 70_reset_and_hazards.md R201: reset while idle changes nothing.
(The spec marks this rule as its own derivation.)
That the presented commands stay presented and that the step uses up one level of the reset input are the model's choices
(log entry 7). -/
def Obligations.ResetWhileIdleChangesNothing : Prop :=
  ∀ (s : State) (rest : List Bool), RegInv s → s.run = none → s.resetIn = true :: rest →
    step s = .next { s with resetIn := rest }

/-- 10_state.md R35: after reset the working registers are zero, no command is in progress and no response is pending; `BUF`
holds the default Representation value; and the reset input, whenever it is asserted, leaves the working registers so and
does not touch the source or the sink. -/
def Obligations.ResetValues : Prop :=
  (State.reset.run = none ∧ State.reset.runBit = 0 ∧ State.reset.acc = 0 ∧ State.reset.rem = 0 ∧
    State.reset.gidx = 0 ∧ (∀ g, g < 10 → slotGet State.reset.buf g = 0x00#8) ∧
    (∀ f, repResult f State.reset.buf = defaultRep) ∧ lastResponse State.reset = none) ∧
  ∀ (s : State) (rest : List Bool), s.resetIn = true :: rest → ∃ t, step s = .next t ∧
    t.run = none ∧ t.runBit = 0 ∧ t.acc = 0 ∧ t.rem = 0 ∧ t.gidx = 0 ∧ (∀ g, g < 10 → slotGet t.buf g = 0x00#8) ∧
    t.resps = s.resps ∧ t.src = s.src ∧ t.snk = s.snk

/-- The invariant holds at reset.
The host, source and sink of `State.reset` are the model's choice (log entry 8); the invariant does not speak of them. -/
def Obligations.ResetMeetsRegisterDiscipline : Prop := RegInv State.reset

/-- 10_state.md R28, R29; 41_decoder.md R126; 42_encoder.md R149: every step keeps the register discipline.
The invariant is of the states between the model's steps: that these are the idle and the waiting states, and that a
command with no port runs within one step, are the model's choices (log entries 3 and 14). -/
def Obligations.StepKeepsRegisterDiscipline : Prop :=
  ∀ s t : State, RegInv s → step s = .next t → RegInv t

/-- 10_state.md R29: an idle block holds its reset values, and a command that completes, succeeding or failing, leaves them,
whatever the registers held before. -/
def Obligations.IdleBlockHoldsResetValues : Prop :=
  (∀ s t : State, RegInv s → step s = .next t → t.run = none →
    t.acc = 0 ∧ t.rem = 0 ∧ t.gidx = 0 ∧ ∀ g, slotGet t.buf g = 0x00#8) ∧
  (∀ (i : Instr) (s t : State), exec i s = .next t → t.resps ≠ s.resps →
    t.run = none ∧ t.acc = 0 ∧ t.rem = 0 ∧ t.gidx = 0 ∧ ∀ g, slotGet t.buf g = 0x00#8)

/-- 10_state.md R30: while a command runs, another command is neither started nor lost; a command is taken only when the
block is idle, and then exactly one.
The model's choices: that a held command leaves the state unchanged (log entry 10), and that the presented commands stay
presented when the step of a running command is a reset (log entry 7). -/
def Obligations.CommandsAreHeldWhileOneRuns : Prop :=
  (∀ (i j : Instr) (s : State), s.run = some i → j ≠ i → exec j s = .next s) ∧
  (∀ (i : Instr) (s t : State), s.run = some i → step s = .next t → t.reqs = s.reqs) ∧
  (∀ (i : Instr) (s t : State) (q : Request) (rest : List Request), s.run = none → s.reqs = q :: rest →
    exec i s = .next t → t.reqs = rest)

/-- 20_memory.md R69: the operands are sampled at acceptance; what is presented afterwards has no effect on the running
command. -/
def Obligations.OperandsAreSampledAtAcceptance : Prop :=
  ∀ (i : Instr) (s t : State) (reqs : List Request), s.run = some i → exec i s = .next t →
    exec i { s with reqs := reqs } = .next { t with reqs := reqs }

/-- 30_encoding.md R93: a command reads `opnd_int[W-1:0]` or slots `0 .. N-1` of `opnd_rep`, whichever its row names, and
ignores everything else that is presented with it, its own word too once it is decoded. -/
def Obligations.UnnamedOperandPartsAreIgnored : Prop :=
  ∀ (i : Instr) (s : State) (q₁ q₂ : Request) (rest : List Request), s.run = none →
    (i.op.operand = .int → q₁.opndInt.setWidth i.fam.W = q₂.opndInt.setWidth i.fam.W) →
    (i.op.operand = .rep → ∀ g, g < i.fam.N → repSlot q₁.opndRep g = repSlot q₂.opndRep g) →
    exec i { s with reqs := q₁ :: rest } = exec i { s with reqs := q₂ :: rest }

/-- 10_state.md R31: a family-32 command drives bits 63:32 of `res_int` and slots 5 to 9 of `res_rep` to zero, and a command
drives a field it does not produce to zero. -/
def Obligations.ResultFieldsUnusedPartsAreZero : Prop :=
  ∀ (i : Instr) (s t : State) (r : Response), exec i s = .next t → t.resps = s.resps ++ [r] →
    (i.fam = .f32 → (resIntField r).extractLsb' 32 32 = 0 ∧
      ∀ g, 5 ≤ g → g < 10 → repSlot (resRepField r) g = 0x00#8) ∧
    (i.op.result ≠ .int → resIntField r = 0) ∧ (i.op.result ≠ .rep → resRepField r = 0) ∧
    (statusField r ≠ 0 → resIntField r = 0 ∧ resRepField r = 0)

/-- 10_state.md R31 (slot `g` at bits `8g+7 .. 8g`): what `res_rep` carries is the slots of the buffer, `0 .. N-1`, each in its
place, and what `BUF` is loaded with is the slots of `opnd_rep`. -/
def Obligations.RepresentationFieldCarriesSlots : Prop :=
  (∀ (f : Fam) (b : Slots) (g : Nat), g < 10 →
    repSlot (repResult f b) g = if g < f.N then slotGet b g else 0x00#8) ∧
  (∀ (f : Fam) (q : Request) (g : Nat), g < 10 →
    slotGet (repOperand f q) g = if g < f.N then repSlot q.opndRep g else 0x00#8)

/-! ### The zigzag mapper -/

/-- 40_zigzag.md R111: `ZZE.W` returns the zigzag encoding of its signed operand in one step; the streams, the registers and
the other commands are untouched; the corner values and the examples of the rule. -/
def Obligations.ZzeEncodesSigned : Prop :=
  (encode (.of .f32 .zze) = 0x00#8 ∧ encode (.of .f64 .zze) = 0x10#8) ∧
  (∀ (f : Fam) (s : State) (q : Request) (rest : List Request), s.run = none → s.reqs = q :: rest →
    exec (.of f .zze) s = .next (ended s rest s.src s.snk (.okInt (intResult f (zze (intOperand f q)))))) ∧
  (∀ (f : Fam) (v : BitVec f.W),
    (0 ≤ v.toInt → zze v = BitVec.ofInt f.W (2 * v.toInt)) ∧
    (v.toInt < 0 → zze v = BitVec.ofInt f.W (2 * (-v.toInt) - 1))) ∧
  (∀ f : Fam, zze (0 : BitVec f.W) = 0 ∧ zze (BitVec.intMin f.W) = BitVec.allOnes f.W ∧
    zze (BitVec.intMax f.W) = BitVec.allOnes f.W - 1) ∧
  zze (-1#32) = 1#32 ∧ zze 1#32 = 2#32 ∧ zze 0x80000000#32 = 0xFFFFFFFF#32

/-- 40_zigzag.md R112: `ZZD.W` returns the signed value of its unsigned operand in one step. -/
def Obligations.ZzdDecodesUnsigned : Prop :=
  (encode (.of .f32 .zzd) = 0x01#8 ∧ encode (.of .f64 .zzd) = 0x11#8) ∧
  (∀ (f : Fam) (s : State) (q : Request) (rest : List Request), s.run = none → s.reqs = q :: rest →
    exec (.of f .zzd) s = .next (ended s rest s.src s.snk (.okInt (intResult f (zzd (intOperand f q)))))) ∧
  (∀ (f : Fam) (u : BitVec f.W),
    (u.toNat % 2 = 1 → (zzd u).toInt = -(u.toNat / 2 : Int) - 1) ∧
    (u.toNat % 2 = 0 → (zzd u).toInt = (u.toNat / 2 : Int))) ∧
  (∀ f : Fam, zzd (0 : BitVec f.W) = 0 ∧ zzd (1 : BitVec f.W) = -1 ∧
    zzd (BitVec.allOnes f.W) = BitVec.intMin f.W ∧ zzd (BitVec.allOnes f.W - 1) = BitVec.intMax f.W) ∧
  zzd 1#32 = 0xFFFFFFFF#32 ∧ zzd 2#32 = 1#32 ∧ zzd 0xFFFFFFFF#32 = 0x80000000#32

/-- 40_zigzag.md R113: the branch-free forms.
(The spec marks this rule as its own derivation.) -/
def Obligations.ZigzagClosedForms : Prop :=
  ∀ (f : Fam) (x : BitVec f.W),
    zze x = (x <<< 1) ^^^ x.sshiftRight (f.W - 1) ∧
    zzd x = (x >>> 1) ^^^ (0 - (x.extractLsb' 0 1).setWidth f.W)

/-- 40_zigzag.md R114: the two maps are mutual inverses, so each is a permutation. -/
def Obligations.ZigzagMapsAreInverse : Prop :=
  ∀ (f : Fam) (x : BitVec f.W), zzd (zze x) = x ∧ zze (zzd x) = x

/-- 40_zigzag.md R115: a non-negative `v` goes to the even number `2v`, a negative `v` to the odd number `-2v - 1`, as
numbers.
(The spec marks this rule as its own derivation.) -/
def Obligations.ZigzagOrder : Prop :=
  ∀ (f : Fam) (v : BitVec f.W),
    (0 ≤ v.toInt → ((zze v).toNat : Int) = 2 * v.toInt) ∧
    (v.toInt < 0 → ((zze v).toNat : Int) = -2 * v.toInt - 1) ∧
    (zze (BitVec.intMax f.W)).toNat = 2 ^ f.W - 2 ∧ (zze (BitVec.intMin f.W)).toNat = 2 ^ f.W - 1

/-! ### The ports -/

/-- 20_memory.md R52, R56: the answers of `SrcRead` and of `SnkWrite`, and their effect on the source and the sink; the source
delivers its bytes in order (R51). -/
def Obligations.PortAnswers : Prop :=
  (∀ (src src' : Source),
    (∀ b, srcRead src = (some (.byte b), src') →
      src.data[src.pos]? = some b ∧ src'.pos = src.pos + 1 ∧ src'.data = src.data) ∧
    (srcRead src = (some .eoi, src') → src'.pos = src.pos ∧ src'.data = src.data) ∧
    (∀ e, srcRead src = (some (.err e), src') → src.pos ≤ src'.pos ∧ src'.data = src.data)) ∧
  (∀ (snk snk' : Sink) (b : Byte),
    (snkWrite snk b = (some .ok, snk') → snk'.out = snk.out ++ [b]) ∧
    (∀ e, snkWrite snk b = (some (.err e), snk') → snk'.out = snk.out ∨ snk'.out = snk.out ++ [b]))

/-- 20_memory.md R51, R62: bytes served one at a time are the next bytes of the source, each consumed once; bytes accepted one
at a time are appended in order (R55). -/
def Obligations.StreamsKeepTheirOrder : Prop :=
  (∀ (src m : Source) (bs : List Byte), servesTo src bs = some m →
    (src.data.drop src.pos).take bs.length = bs ∧ m.pos = src.pos + bs.length ∧ m.data = src.data) ∧
  (∀ (snk m : Sink) (bs : List Byte), acceptsTo snk bs = some m → m.out = snk.out ++ bs)

/-- 20_memory.md R53: while its port has not answered, a command waits with every register unchanged.
That the wait is a step to a state with the registers unchanged is the model's choice (log entry 6). -/
def Obligations.WaitingHoldsEveryRegister : Prop :=
  (∀ (i : Instr) (s : State) (src : Source), s.run = some i → i.op.port = .source →
    srcRead s.src = (none, src) → exec i s = .next { s with src := src }) ∧
  (∀ (i : Instr) (s : State) (snk : Sink), s.run = some i → i.op.port = .sink →
    (∀ b, snkWrite s.snk b = (none, snk)) → exec i s = .next { s with snk := snk }) ∧
  (∀ (i : Instr) (s : State), s.run = some i → i.op.port = .source → s.src.attached = false → exec i s = .next s) ∧
  (∀ (i : Instr) (s : State), s.run = some i → i.op.port = .sink → s.snk.attached = false → exec i s = .next s)

/-! ### The decoder -/

/-- 60_exceptions.md R176: the checks inside one decoder beat, in their order; 41_decoder.md R126: the register transfer of the
beat, row by row. -/
def Obligations.DecoderBeatTable : Prop :=
  ∀ (f : Fam) (finish : BitVec f.W → Slots → Response) (s : State) (src : Source), s.gidx.toNat ≤ f.N →
    (srcRead s.src = (none, src) → decodeBeat f finish s = .wait { s with src := src }) ∧
    (srcRead s.src = (some .eoi, src) →
      decodeBeat f finish s = .done (ended s s.reqs src s.snk (.fail .unexpectedEndOfInput))) ∧
    (∀ e, srcRead s.src = (some (.err e), src) →
      decodeBeat f finish s = .done (ended s s.reqs src s.snk (.fail (.ioError e)))) ∧
    (∀ b, srcRead s.src = (some (.byte b), src) → s.gidx.toNat = f.N →
      decodeBeat f finish s = .done (ended s s.reqs src s.snk (.fail .encodingTooLong))) ∧
    (∀ b, srcRead s.src = (some (.byte b), src) → s.gidx.toNat < f.N → b.getLsbD 7 = true →
      decodeBeat f finish s = .go
        { s with
          src := src
          acc := toReg f (regValue f s.acc ||| (b.extractLsb' 0 7).setWidth f.W <<< (7 * s.gidx.toNat))
          buf := slotSet s.buf s.gidx.toNat b
          gidx := BitVec.ofNat 4 (s.gidx.toNat + 1) }) ∧
    (∀ b, srcRead s.src = (some (.byte b), src) → s.gidx.toNat < f.N → b.getLsbD 7 = false →
      decodeBeat f finish s = .done (ended s s.reqs src s.snk
        (finish (regValue f s.acc ||| (b.extractLsb' 0 7).setWidth f.W <<< (7 * s.gidx.toNat))
          (slotSet s.buf s.gidx.toNat b))))

/-- 41_decoder.md R124: `RDS.W`, every answer of the source; zero; the examples of the rule.
That no answer of the source leads to a next state in which the command waits, with the other beats of the step done, is the
model's choice (log entries 3 and 6). -/
def Obligations.RdsReadsSigned : Prop :=
  (encode (.of .f32 .rds) = 0x02#8 ∧ encode (.of .f64 .rds) = 0x12#8) ∧
  (∀ (f : Fam) (s : State) (q : Request) (rest : List Request) (bs : List Byte) (m : Source),
    s.run = none → s.reqs = q :: rest → (∀ b ∈ bs, continues b = true) → bs.length ≤ f.N →
    servesTo s.src bs = some m →
    readOutcome (.of f .rds) (fun l => .okInt (intResult f (assemble f.W l))) s rest bs m
      (exec (.of f .rds) s)) ∧
  (∀ f : Fam, assemble f.W [0x00#8] = 0) ∧
  assemble 32 [0xFF#8, 0xFF#8, 0xFF#8, 0xFF#8, 0x0F#8] = -1#32

/-- 41_decoder.md R125: `RDR.W` returns the bytes verbatim, the slots after the terminator zero; on failure nothing.
(That the result is well formed the spec marks as its own derivation.)
That no answer of the source leads to a next state in which the command waits, with the other beats of the step done, is the
model's choice (log entries 3 and 6). -/
def Obligations.RdrStoresVerbatim : Prop :=
  (encode (.of .f32 .rdr) = 0x03#8 ∧ encode (.of .f64 .rdr) = 0x13#8) ∧
  (∀ (f : Fam) (s : State) (q : Request) (rest : List Request) (bs : List Byte) (m : Source),
    s.run = none → s.reqs = q :: rest → (∀ b ∈ bs, continues b = true) → bs.length ≤ f.N →
    servesTo s.src bs = some m →
    readOutcome (.of f .rdr) (fun l => .okRep (repResult f (padded l))) s rest bs m
      (exec (.of f .rdr) s)) ∧
  (∀ (f : Fam) (bs : List Byte) (b : Byte), (∀ x ∈ bs, continues x = true) → continues b = false →
    bs.length < f.N →
    repWF f (repResult f (padded (bs ++ [b]))) = true ∧
    ∀ g, g < 10 → repSlot (repResult f (padded (bs ++ [b]))) g = (bs ++ [b]).getD g 0x00#8) ∧
  repResult .f32 (padded [0xAC#8, 0x02#8]) = 0x02AC#80 ∧ repResult .f32 (padded [0x80#8, 0x00#8]) = 0x0080#80

/-- 43_fused_unsigned.md R161: `RDU.W` is the decoder followed by the signed-to-unsigned map.
That no answer of the source leads to a next state in which the command waits, with the other beats of the step done, is the
model's choice (log entries 3 and 6). -/
def Obligations.RduReadsUnsigned : Prop :=
  (encode (.of .f32 .rdu) = 0x08#8 ∧ encode (.of .f64 .rdu) = 0x18#8) ∧
  (∀ (f : Fam) (s : State) (q : Request) (rest : List Request) (bs : List Byte) (m : Source),
    s.run = none → s.reqs = q :: rest → (∀ b ∈ bs, continues b = true) → bs.length ≤ f.N →
    servesTo s.src bs = some m →
    readOutcome (.of f .rdu) (fun l => .okInt (intResult f (zze (assemble f.W l)))) s rest bs m
      (exec (.of f .rdu) s)) ∧
  (∀ f : Fam, zze (assemble f.W [0x00#8]) = 0 ∧ zze (BitVec.intMin f.W) = BitVec.allOnes f.W ∧
    ∀ v : BitVec f.W, v.toInt < 0 → (zze v).toNat % 2 = 1) ∧
  zze (assemble 32 [0x01#8]) = 2#32 ∧
  zze (assemble 32 [0xFF#8, 0xFF#8, 0xFF#8, 0xFF#8, 0x0F#8]) = 1#32 ∧
  zze (assemble 32 [0x80#8, 0x80#8, 0x80#8, 0x80#8, 0x08#8]) = 0xFFFFFFFF#32

/-- 20_memory.md R53, 41_decoder.md R126: a decoder command that waited goes on exactly where it was: what it has read counts,
and the answers that follow decide as they would have without the wait.
That no answer of the source leads to a next state in which the command waits, with the other beats of the step done, is the
model's choice (log entries 3 and 6). -/
def Obligations.WaitingDecodersResume : Prop :=
  ∀ (f : Fam) (s : State) (rest : List Request) (pre bs : List Byte) (src m : Source),
    (∀ b ∈ pre ++ bs, continues b = true) → (pre ++ bs).length ≤ f.N → servesTo src bs = some m →
    readOutcome (.of f .rds) (fun l => .okInt (intResult f (assemble f.W l))) s rest (pre ++ bs) m
      (exec (.of f .rds) (waitingRead (.of f .rds) s rest pre src)) ∧
    readOutcome (.of f .rdr) (fun l => .okRep (repResult f (padded l))) s rest (pre ++ bs) m
      (exec (.of f .rdr) (waitingRead (.of f .rdr) s rest pre src)) ∧
    readOutcome (.of f .rdu) (fun l => .okInt (intResult f (zze (assemble f.W l)))) s rest (pre ++ bs) m
      (exec (.of f .rdu) (waitingRead (.of f .rdu) s rest pre src))

/-- 41_decoder.md R122: the length boundary, for the three decoder commands.  After `N` bytes with bit 7 set: one more byte,
whatever its bit 7, is consumed and fails the command with `EncodingTooLong`; `End` and `Err(e)` in its place fail it with
their own kinds. -/
def Obligations.LengthBoundary : Prop :=
  ∀ (f : Fam) (op : Op) (s : State) (q : Request) (rest : List Request) (bs : List Byte) (m : Source),
    op.port = .source → s.run = none → s.reqs = q :: rest → (∀ b ∈ bs, continues b = true) → bs.length = f.N →
    servesTo s.src bs = some m →
    (∀ b src, srcRead m = (some (.byte b), src) →
      src.pos = s.src.pos + (f.N + 1) ∧
      exec (.of f op) s = .next (ended s rest src s.snk (.fail .encodingTooLong))) ∧
    (∀ src, srcRead m = (some .eoi, src) →
      exec (.of f op) s = .next (ended s rest src s.snk (.fail .unexpectedEndOfInput))) ∧
    (∀ e src, srcRead m = (some (.err e), src) →
      exec (.of f op) s = .next (ended s rest src s.snk (.fail (.ioError e))))

/-- 41_decoder.md R123: on success a decoder command has consumed exactly `k + 1` bytes, where `k` is the index of the first
byte with bit 7 clear, and the next request gets the byte after the terminator (the first byte of what is left). -/
def Obligations.DecoderStopsAtTerminator : Prop :=
  ∀ (f : Fam) (op : Op) (s : State) (q : Request) (rest : List Request) (bs : List Byte) (b : Byte) (m : Source),
    op.port = .source → s.run = none → s.reqs = q :: rest → (∀ x ∈ bs, continues x = true) → continues b = false →
    bs.length < f.N → servesTo s.src (bs ++ [b]) = some m →
    (∃ r, statusField r = 0 ∧ exec (.of f op) s = .next (ended s rest m s.snk r)) ∧
    m.pos = s.src.pos + (bs.length + 1) ∧ m.data = s.src.data ∧
    ∀ c src, srcRead m = (some (.byte c), src) → s.src.data[s.src.pos + (bs.length + 1)]? = some c

/-- 30_encoding.md R87: each of the three decoder commands accepts a byte list (the whole of it, and nothing before its end)
exactly when it has between 1 and `N` bytes, all but the last with bit 7 set and the last with bit 7 clear. -/
def Obligations.AcceptedLanguage : Prop :=
  ∀ (f : Fam) (op : Op) (s : State) (q : Request) (rest : List Request) (l : List Byte),
    op.port = .source → s.run = none → s.reqs = q :: rest →
    s.src = { data := l, pos := 0, attached := true, script := [] } →
    ((∃ t r, exec (.of f op) s = .next t ∧ t.resps = s.resps ++ [r] ∧ statusField r = 0 ∧ t.src.pos = l.length) ↔
      ∃ bs b, l = bs ++ [b] ∧ bs.length < f.N ∧ (∀ x ∈ bs, continues x = true) ∧ continues b = false)

/-- 30_encoding.md R88: extra high-order zero groups do not change the value that is read. -/
def Obligations.NonMinimalEncodingsAccepted : Prop :=
  ∀ (f : Fam) (s : State) (q : Request) (rest : List Request) (bs : List Byte) (b : Byte) (k : Nat) (m : Source),
    s.run = none → s.reqs = q :: rest → (∀ x ∈ bs, continues x = true) → continues b = false →
    bs.length + k + 2 ≤ f.N →
    servesTo s.src (bs ++ [b ||| 0x80#8] ++ List.replicate k 0x80#8 ++ [0x00#8]) = some m →
    exec (.of f .rds) s = .next (ended s rest m s.snk (.okInt (intResult f (assemble f.W (bs ++ [b])))))

/-- 30_encoding.md R89: the bits of the last group that fall outside the accumulator are dropped, with no failure. -/
def Obligations.ExcessBitsDropped : Prop :=
  ∀ (f : Fam) (s : State) (q : Request) (rest : List Request) (bs : List Byte) (b : Byte) (m : Source),
    s.run = none → s.reqs = q :: rest → (∀ x ∈ bs, continues x = true) → continues b = false →
    bs.length + 1 = f.N → servesTo s.src (bs ++ [b]) = some m →
    exec (.of f .rds) s = .next (ended s rest m s.snk
      (.okInt (intResult f (assemble f.W (bs ++ [b &&& BitVec.ofNat 8 (2 ^ (f.W - 7 * (f.N - 1)) - 1)])))))

/-- 41_decoder.md R128: `R2I.W` assembles slots 0 up to the terminator; the slots after it are never consulted; an operand
with no terminator in its `N` slots is refused at issue. -/
def Obligations.R2iConverts : Prop :=
  (encode (.of .f32 .r2i) = 0x04#8 ∧ encode (.of .f64 .r2i) = 0x14#8) ∧
  (∀ (f : Fam) (s : State) (q : Request) (rest : List Request) (k : Nat), s.run = none → s.reqs = q :: rest →
    k < f.N → continues (repSlot q.opndRep k) = false → (∀ j, j < k → continues (repSlot q.opndRep j) = true) →
    exec (.of f .r2i) s = .next (ended s rest s.src s.snk
      (.okInt (intResult f (assemble f.W ((List.range (k + 1)).map (repSlot q.opndRep))))))) ∧
  (∀ (f : Fam) (s : State) (q : Request) (rest : List Request), s.run = none → s.reqs = q :: rest →
    (∀ g, g < f.N → continues (repSlot q.opndRep g) = true) →
    exec (.of f .r2i) s = .refused (.noTerminator (.of f .r2i))) ∧
  assemble 32 [0xAC#8, 0x02#8] = 300#32 ∧
  assemble 32 [0x80#8, 0x80#8, 0x80#8, 0x80#8, 0x08#8] = 0x80000000#32 ∧
  (∀ f : Fam, assemble f.W [repSlot defaultRep 0] = 0)

/-- 10_state.md R24: the default Representation value is well formed with terminator index 0 and converts to 0; equality is of
the slots, and two unequal values can convert to one integer.
(That unequal values can convert to one integer the spec marks as its own derivation.) -/
def Obligations.DefaultRepresentation : Prop :=
  (∀ f, repWF f defaultRep = true) ∧ isTerminatorIndex defaultRep 0 = true ∧
  (∀ (f : Fam) (s : State) (q : Request) (rest : List Request), s.run = none → s.reqs = q :: rest →
    q.opndRep = defaultRep ∨ q.opndRep = 0x0080#80 →
    exec (.of f .r2i) s = .next (ended s rest s.src s.snk (.okInt 0))) ∧
  defaultRep ≠ 0x0080#80 ∧
  (∀ r r' : RepField, r = r' ↔ ∀ g, g < 10 → repSlot r g = repSlot r' g)

/-! ### The encoder -/

/-- 42_encoder.md R149: the register transfer of one beat of `WRS`, `WRU` and of `WRR`, row by row.
(The spec marks this rule as its own derivation.) -/
def Obligations.EncoderBeatTable : Prop :=
  ∀ (f : Fam) (s : State) (snk : Sink), s.gidx.toNat < f.N →
    (∀ (r nxt : BitVec f.W) (b : Byte), r = s.rem.setWidth f.W → nxt = r >>> 7 →
      b = BitVec.ofBool (decide (nxt ≠ 0)) ++ r.extractLsb' 0 7 →
      (snkWrite s.snk b = (none, snk) → encodeBeat f s = .wait { s with snk := snk }) ∧
      (∀ e, snkWrite s.snk b = (some (.err e), snk) →
        encodeBeat f s = .done (ended s s.reqs s.src snk (.fail (.ioError e)))) ∧
      (snkWrite s.snk b = (some .ok, snk) → nxt ≠ 0 →
        encodeBeat f s = .go { s with snk := snk, rem := nxt.setWidth 64, gidx := BitVec.ofNat 4 (s.gidx.toNat + 1) }) ∧
      (snkWrite s.snk b = (some .ok, snk) → nxt = 0 →
        encodeBeat f s = .done (ended s s.reqs s.src snk .okNone))) ∧
    (∀ b : Byte, b = slotGet s.buf s.gidx.toNat →
      (snkWrite s.snk b = (none, snk) → writeBeat s = .wait { s with snk := snk }) ∧
      (∀ e, snkWrite s.snk b = (some (.err e), snk) →
        writeBeat s = .done (ended s s.reqs s.src snk (.fail (.ioError e)))) ∧
      (snkWrite s.snk b = (some .ok, snk) → b.getLsbD 7 = true →
        writeBeat s = .go { s with snk := snk, gidx := BitVec.ofNat 4 (s.gidx.toNat + 1) }) ∧
      (snkWrite s.snk b = (some .ok, snk) → b.getLsbD 7 = false →
        writeBeat s = .done (ended s s.reqs s.src snk .okNone)))

/-- 42_encoder.md R145: `WRS.W v` offers the bytes of `ENC_W(v)` in order, and every answer of the sink; the corner values and
the examples of the rule.
That no answer of the sink leads to a next state in which the command waits, with the other beats of the step done, is the
model's choice (log entries 3 and 6). -/
def Obligations.WrsWritesSigned : Prop :=
  (encode (.of .f32 .wrs) = 0x05#8 ∧ encode (.of .f64 .wrs) = 0x15#8) ∧
  (∀ (s : State) (q : Request) (rest : List Request) (pre post : List Byte) (b : Byte) (m : Sink),
    s.run = none → s.reqs = q :: rest → acceptsTo s.snk pre = some m →
    (enc .f32 (q.opndInt.setWidth 32) = pre ++ b :: post →
      writeOutcome (waitingEncode .wrs32 s rest (q.opndInt.setWidth 32) pre.length) s rest b post m
        (exec .wrs32 s)) ∧
    (enc .f64 q.opndInt = pre ++ b :: post →
      writeOutcome (waitingEncode .wrs64 s rest q.opndInt pre.length) s rest b post m (exec .wrs64 s))) ∧
  (∀ f : Fam, enc f 0 = [0x00#8] ∧ ∀ v : BitVec f.W, v.toInt < 0 → (enc f v).length = f.N) ∧
  enc .f32 (BitVec.intMin 32) = List.replicate 4 0x80#8 ++ [0x08#8] ∧
  enc .f64 (BitVec.intMin 64) = List.replicate 9 0x80#8 ++ [0x01#8] ∧
  enc .f32 (BitVec.intMax 32) = List.replicate 4 0xFF#8 ++ [0x07#8] ∧
  enc .f64 (BitVec.intMax 64) = List.replicate 8 0xFF#8 ++ [0x7F#8] ∧
  enc .f32 300#32 = [0xAC#8, 0x02#8] ∧ enc .f32 (-1#32) = [0xFF#8, 0xFF#8, 0xFF#8, 0xFF#8, 0x0F#8]

/-- 43_fused_unsigned.md R162: `WRU.W u` does what `WRS.W` does with `zzd_W(u)`.
That no answer of the sink leads to a next state in which the command waits, with the other beats of the step done, is the
model's choice (log entries 3 and 6). -/
def Obligations.WruWritesUnsigned : Prop :=
  (encode (.of .f32 .wru) = 0x09#8 ∧ encode (.of .f64 .wru) = 0x19#8) ∧
  (∀ (s : State) (q : Request) (rest : List Request) (pre post : List Byte) (b : Byte) (m : Sink),
    s.run = none → s.reqs = q :: rest → acceptsTo s.snk pre = some m →
    (enc .f32 (zzd (q.opndInt.setWidth 32)) = pre ++ b :: post →
      writeOutcome (waitingEncode .wru32 s rest (zzd (q.opndInt.setWidth 32)) pre.length) s rest b post m
        (exec .wru32 s)) ∧
    (enc .f64 (zzd q.opndInt) = pre ++ b :: post →
      writeOutcome (waitingEncode .wru64 s rest (zzd q.opndInt) pre.length) s rest b post m (exec .wru64 s))) ∧
  (∀ f : Fam, enc f (zzd 0) = [0x00#8] ∧
    (∀ u : BitVec f.W, u.toNat % 2 = 1 → (enc f (zzd u)).length = f.N) ∧
    (∀ u : BitVec f.W, u.toNat % 2 = 0 → zzd u = BitVec.ofNat f.W (u.toNat / 2)) ∧
    zzd (BitVec.allOnes f.W) = BitVec.intMin f.W ∧ zzd (BitVec.allOnes f.W - 1) = BitVec.intMax f.W) ∧
  enc .f32 (zzd 1#32) = [0xFF#8, 0xFF#8, 0xFF#8, 0xFF#8, 0x0F#8] ∧ enc .f32 (zzd 2#32) = [0x01#8] ∧
  enc .f32 (zzd 600#32) = [0xAC#8, 0x02#8] ∧
  enc .f32 (zzd 0xFFFFFFFF#32) = [0x80#8, 0x80#8, 0x80#8, 0x80#8, 0x08#8]

/-- 42_encoder.md R146: `I2R.W v` returns the bytes of `ENC_W(v)` in the slots, the others zero; it always succeeds and uses no
port. -/
def Obligations.I2rStoresEncoding : Prop :=
  (encode (.of .f32 .i2r) = 0x06#8 ∧ encode (.of .f64 .i2r) = 0x16#8) ∧
  (∀ (f : Fam) (s : State) (q : Request) (rest : List Request), s.run = none → s.reqs = q :: rest →
    exec (.of f .i2r) s = .next (ended s rest s.src s.snk
      (.okRep (repResult f (padded (enc f (q.opndInt.setWidth f.W))))))) ∧
  (∀ (f : Fam) (v : BitVec f.W), repWF f (repResult f (padded (enc f v))) = true ∧
    ∀ g, g < 10 → repSlot (repResult f (padded (enc f v))) g = (enc f v).getD g 0x00#8) ∧
  (∀ f : Fam, repResult f (padded (enc f 0)) = defaultRep) ∧
  repResult .f32 (padded (enc .f32 300#32)) = 0x02AC#80 ∧
  repResult .f32 (padded (enc .f32 (-1#32))) = 0x0FFFFFFFFF#80

/-- 42_encoder.md R147: `WRR.W R` offers the stored bytes as they stand, slot 0 up to the terminator, and every answer of the
sink; an operand with no terminator is refused at issue; what `RDR` stores of a byte list is written back as that byte
list.
(That what `RDR` stores is written back byte for byte the spec marks as its own derivation.)
That no answer of the sink leads to a next state in which the command waits, with the other beats of the step done, is the
model's choice (log entries 3 and 6). -/
def Obligations.WrrWritesVerbatim : Prop :=
  (encode (.of .f32 .wrr) = 0x07#8 ∧ encode (.of .f64 .wrr) = 0x17#8) ∧
  (∀ (f : Fam) (s : State) (q : Request) (rest : List Request) (pre post : List Byte) (b : Byte) (m : Sink),
    s.run = none → s.reqs = q :: rest → (∃ g, g < f.N ∧ continues (repSlot q.opndRep g) = false) →
    repBytes f q.opndRep = pre ++ b :: post → acceptsTo s.snk pre = some m →
    writeOutcome (waitingWrite (.of f .wrr) s rest (repOperand f q) pre.length) s rest b post m
      (exec (.of f .wrr) s)) ∧
  (∀ (f : Fam) (s : State) (q : Request) (rest : List Request), s.run = none → s.reqs = q :: rest →
    (∀ g, g < f.N → continues (repSlot q.opndRep g) = true) →
    exec (.of f .wrr) s = .refused (.noTerminator (.of f .wrr))) ∧
  (∀ (f : Fam) (r : RepField) (k : Nat), k < f.N → continues (repSlot r k) = false →
    (∀ j, j < k → continues (repSlot r j) = true) →
    repBytes f r = (List.range (k + 1)).map (repSlot r)) ∧
  (∀ (f : Fam) (bs : List Byte) (b : Byte), (∀ x ∈ bs, continues x = true) → continues b = false →
    bs.length < f.N → repBytes f (repResult f (padded (bs ++ [b]))) = bs ++ [b]) ∧
  repBytes .f32 0x02AC#80 = [0xAC#8, 0x02#8] ∧ repBytes .f32 0#80 = [0x00#8] ∧
  repBytes .f32 0x0080#80 = [0x80#8, 0x00#8]

/-- 20_memory.md R53, 42_encoder.md R149: an encoder command that waited goes on where it was, offering the same byte.
That no answer of the sink leads to a next state in which the command waits, with the other beats of the step done, is the
model's choice (log entries 3 and 6). -/
def Obligations.WaitingEncodersResume : Prop :=
  (∀ (i : Instr) (s : State) (rest : List Request) (v : BitVec i.fam.W) (done pre post : List Byte) (b : Byte)
      (snk m : Sink),
    i.op = .wrs ∨ i.op = .wru → enc i.fam v = done ++ pre ++ b :: post → acceptsTo snk pre = some m →
    writeOutcome (waitingEncode i s rest v (done ++ pre).length) s rest b post m
      (exec i (waitingEncode i s rest v done.length snk))) ∧
  (∀ (f : Fam) (s : State) (q : Request) (rest : List Request) (done pre post : List Byte) (b : Byte) (snk m : Sink),
    (∃ g, g < f.N ∧ continues (repSlot q.opndRep g) = false) →
    repBytes f q.opndRep = done ++ pre ++ b :: post → acceptsTo snk pre = some m →
    writeOutcome (waitingWrite (.of f .wrr) s rest (repOperand f q) (done ++ pre).length) s rest b post m
      (exec (.of f .wrr) (waitingWrite (.of f .wrr) s rest (repOperand f q) done.length snk)))

/-- 30_encoding.md R84: the canonical length is the smallest `k ≥ 1` with `p < 2^(7k)`, and the byte at group index `g` is
`{C, p[7g+6:7g]}`, `C` set on every byte but the last.
(The spec marks this rule as its own derivation.) -/
def Obligations.EncodingIsCanonical : Prop :=
  ∀ (f : Fam) (v : BitVec f.W),
    (1 ≤ (enc f v).length ∧ v.toNat < 2 ^ (7 * (enc f v).length) ∧
      ∀ k, 1 ≤ k → v.toNat < 2 ^ (7 * k) → (enc f v).length ≤ k) ∧
    ∀ g, g < (enc f v).length →
      (enc f v)[g]? = some (BitVec.ofBool (decide (g + 1 < (enc f v).length)) ++ v.extractLsb' (7 * g) 7)

/-- 42_encoder.md R143, 30_encoding.md R85: between 1 and `N` bytes, every byte but the last with bit 7 set and the last with it
clear; and every negative value takes `N` bytes.
(The spec marks both rules as its own derivations.) -/
def Obligations.EncodingLengths : Prop :=
  (∀ (f : Fam) (v : BitVec f.W), ∃ bs b, enc f v = bs ++ [b] ∧ bs.length < f.N ∧
    (∀ x ∈ bs, continues x = true) ∧ continues b = false) ∧
  (∀ (f : Fam) (v : BitVec f.W), v.toInt < 0 → (enc f v).length = f.N) ∧
  (∀ v : BitVec 32, (enc .f32 v).length = 5 ↔ (v.toInt < 0 ∨ 268435456 ≤ v.toInt)) ∧
  (∀ v : BitVec 64, (enc .f64 v).length = 10 ↔ v.toInt < 0)

/-- 42_encoder.md R150: minimality.
(The spec marks this rule as its own derivation.) -/
def Obligations.EncodingIsMinimal : Prop :=
  (∀ (f : Fam) (v : BitVec f.W), (enc f v).getLast? = some 0x00#8 → v = 0) ∧
  (∀ (f : Fam) (v : BitVec f.W) (l : List Byte), assemble f.W l = v → l ≠ [] → (enc f v).length ≤ l.length) ∧
  (∀ (f : Fam) (v : BitVec f.W), (enc f v).length = 1 ↔ (0 ≤ v.toInt ∧ v.toInt ≤ 127))

/-! ### Commands together -/

/-- 41_decoder.md R130: decoding what the encoder produces gives the value back, leaving what follows unread; and `R2I` of
`I2R`. -/
def Obligations.DecodeOfEncodeIsIdentity : Prop :=
  (∀ (f : Fam) (v : BitVec f.W) (s : State) (q : Request) (rest : List Request) (m : Source),
    s.run = none → s.reqs = q :: rest → servesTo s.src (enc f v) = some m →
    exec (.of f .rds) s = .next (ended s rest m s.snk (.okInt (intResult f v)))) ∧
  (∀ (f : Fam) (v : BitVec f.W) (tail : List Byte) (src : Source),
    src = { data := enc f v ++ tail, pos := 0, attached := true, script := [] } →
    servesTo src (enc f v) = some { src with pos := (enc f v).length }) ∧
  (∀ (f : Fam) (v : BitVec f.W) (s : State) (q q' : Request) (rest : List Request),
    s.run = none → s.reqs = q :: q' :: rest → q.opndInt.setWidth f.W = v →
    ∃ r, exec (.of f .i2r) s = .next (ended s (q' :: rest) s.src s.snk (.okRep r)) ∧
      (q'.opndRep = r → exec (.of f .r2i) (ended s (q' :: rest) s.src s.snk (.okRep r)) =
        .next (ended (ended s (q' :: rest) s.src s.snk (.okRep r)) rest s.src s.snk (.okInt (intResult f v)))))

/-- 41_decoder.md R129: `RDS` equals `RDR` followed by `R2I`.
(The spec marks this rule as its own derivation.)
That a wait is a next state, and so can be compared, is the model's choice (log entry 6). -/
def Obligations.RdsEqualsRdrThenR2i : Prop :=
  ∀ (f : Fam) (s t u : State) (q : Request) (rest : List Request),
    s.run = none → s.reqs = q :: rest → exec (.of f .rds) s = .next t → exec (.of f .rdr) s = .next u →
    t.src = u.src ∧ (t.run = none ↔ u.run = none) ∧
    (∀ k, t.resps = s.resps ++ [Response.fail k] ↔ u.resps = s.resps ++ [Response.fail k]) ∧
    (∀ v, t.resps = s.resps ++ [Response.okInt v] →
      ∃ r, u.resps = s.resps ++ [Response.okRep r] ∧
        ∀ (q' : Request) (rest' : List Request), q'.opndRep = r →
          exec (.of f .r2i) { u with reqs := q' :: rest' } =
            .next (ended u rest' u.src u.snk (.okInt v)))

/-- 42_encoder.md R148: `WRS v` equals `I2R v` followed by `WRR`.
(The spec marks this rule as its own derivation.)
That a wait is a next state, and so can be compared, is the model's choice (log entry 6). -/
def Obligations.WrsEqualsI2rThenWrr : Prop :=
  ∀ (f : Fam) (s t : State) (q : Request) (rest : List Request),
    s.run = none → s.reqs = q :: rest → exec (.of f .wrs) s = .next t →
    ∃ r, exec (.of f .i2r) s = .next (ended s rest s.src s.snk (.okRep r)) ∧
      ∀ q' : Request, q'.opndRep = r →
        (t.run = none → exec (.of f .wrr) { s with reqs := q' :: rest } = .next t) ∧
        (t.run ≠ none → ∃ u, exec (.of f .wrr) { s with reqs := q' :: rest } = .next u ∧
          u.run ≠ none ∧ u.snk = t.snk ∧ u.gidx = t.gidx ∧ u.resps = t.resps)

/-- 30_encoding.md R95 (identities `RDU = RDS ; ZZE` and `WRU u = ZZD u ; WRS`), 43_fused_unsigned.md R161, R162.
(The spec marks the identities as its own derivations.)
That a wait is a next state, and so can be compared, is the model's choice (log entry 6). -/
def Obligations.FusedCommandsAreCompositions : Prop :=
  (∀ (f : Fam) (s t u : State) (q : Request) (rest : List Request),
    s.run = none → s.reqs = q :: rest → exec (.of f .rdu) s = .next t → exec (.of f .rds) s = .next u →
    t.src = u.src ∧ (t.run = none ↔ u.run = none) ∧
    (∀ k, t.resps = s.resps ++ [Response.fail k] ↔ u.resps = s.resps ++ [Response.fail k]) ∧
    (∀ v, u.resps = s.resps ++ [Response.okInt v] → ∀ (q' : Request) (rest' : List Request), q'.opndInt = v →
      ∃ w, t.resps = s.resps ++ [Response.okInt w] ∧
        exec (.of f .zze) { u with reqs := q' :: rest' } = .next (ended u rest' u.src u.snk (.okInt w)))) ∧
  (∀ (f : Fam) (s : State) (q : Request) (rest : List Request), s.run = none → s.reqs = q :: rest →
    ∃ v, exec (.of f .zzd) s = .next (ended s rest s.src s.snk (.okInt v)) ∧
      ∀ (q' : Request) (t : State), q'.opndInt = v → exec (.of f .wru) s = .next t →
        (t.run = none → exec (.of f .wrs) { s with reqs := q' :: rest } = .next t) ∧
        (t.run ≠ none → exec (.of f .wrs) { s with reqs := q' :: rest } = .next { t with run := some (.of f .wrs) }))

/-- 43_fused_unsigned.md R163: what `WRU.W u` appends to a sink, presented as a source, is read by `RDU.W` as `u`, consuming
exactly those bytes. -/
def Obligations.UnsignedRoundTrip : Prop :=
  ∀ (f : Fam) (s t s' : State) (q q' : Request) (rest rest' : List Request) (bs : List Byte) (m : Source),
    s.run = none → s.reqs = q :: rest → exec (.of f .wru) s = .next t → t.resps = s.resps ++ [Response.okNone] →
    t.snk.out = s.snk.out ++ bs →
    s'.run = none → s'.reqs = q' :: rest' → servesTo s'.src bs = some m →
    exec (.of f .rdu) s' =
      .next (ended s' rest' m s'.snk (.okInt (intResult f (q.opndInt.setWidth f.W))))

/-- 43_fused_unsigned.md R164: mixing the signed and the unsigned commands on one stream.
(The spec marks this rule as its own derivation.) -/
def Obligations.MixingSignedAndUnsigned : Prop :=
  ∀ (f : Fam) (s t s' : State) (q q' : Request) (rest rest' : List Request) (bs : List Byte) (m : Source),
    s.run = none → s.reqs = q :: rest → t.resps = s.resps ++ [Response.okNone] → t.snk.out = s.snk.out ++ bs →
    s'.run = none → s'.reqs = q' :: rest' → servesTo s'.src bs = some m →
    (exec (.of f .wru) s = .next t → exec (.of f .rds) s' =
      .next (ended s' rest' m s'.snk (.okInt (intResult f (zzd (q.opndInt.setWidth f.W)))))) ∧
    (exec (.of f .wrs) s = .next t → exec (.of f .rdu) s' =
      .next (ended s' rest' m s'.snk (.okInt (intResult f (zze (q.opndInt.setWidth f.W))))))

/-! ### Whole-machine rules -/

/-- 20_memory.md R50: a command reaches at most the port its row names. -/
def Obligations.OnlyTheNamedPortIsUsed : Prop :=
  ∀ (i : Instr) (s t : State), exec i s = .next t →
    (i.op.port ≠ .source → t.src = s.src) ∧ (i.op.port ≠ .sink → t.snk = s.snk)

/-- 20_memory.md R51, R55; 60_exceptions.md R177: a step never rewinds the source or changes its bytes, only appends to the sink,
and delivers at most one response, with which the command ends. -/
def Obligations.StepsOnlyAppend : Prop :=
  ∀ s t : State, step s = .next t →
    t.src.data = s.src.data ∧ s.src.pos ≤ t.src.pos ∧ (∃ l, t.snk.out = s.snk.out ++ l) ∧
    (t.resps = s.resps ∨ ∃ r, t.resps = s.resps ++ [r] ∧ t.run = none)

/-- 60_exceptions.md R178: what a failure does, exactly: the command stops, the working registers are cleared and the block
is idle, the response carries the failure and no result, the source keeps the position it reached and the sink every byte
it accepted. -/
def Obligations.FailureEntry : Prop :=
  ∀ (i : Instr) (s t : State) (k : Failure), exec i s = .next t → t.resps = s.resps ++ [Response.fail k] →
    t = ended s t.reqs t.src t.snk (.fail k) ∧ (t.reqs = s.reqs ∨ t.reqs = s.reqs.tail) ∧
    t.src.data = s.src.data ∧ s.src.pos ≤ t.src.pos ∧ (∃ l, t.snk.out = s.snk.out ++ l) ∧
    resIntField (.fail k) = 0 ∧ resRepField (.fail k) = 0

/-- 60_exceptions.md R179: how many bytes are consumed or written before each failure, for a command started with the source
at position `s.src.pos` and the sink holding `s.snk.out`. -/
def Obligations.FailureAccounting : Prop :=
  ∀ (f : Fam) (s : State) (q : Request) (rest : List Request), s.run = none → s.reqs = q :: rest →
    (∀ (op : Op) (bs : List Byte) (m : Source), op.port = .source → (∀ b ∈ bs, continues b = true) →
      bs.length ≤ f.N → servesTo s.src bs = some m →
      (∀ src, srcRead m = (some .eoi, src) → src.pos = s.src.pos + bs.length ∧
        exec (.of f op) s = .next (ended s rest src s.snk (.fail .unexpectedEndOfInput))) ∧
      (∀ b src, srcRead m = (some (.byte b), src) → bs.length = f.N → src.pos = s.src.pos + f.N + 1 ∧
        exec (.of f op) s = .next (ended s rest src s.snk (.fail .encodingTooLong))) ∧
      (∀ e src, srcRead m = (some (.err e), src) → s.src.pos + bs.length ≤ src.pos ∧
        exec (.of f op) s = .next (ended s rest src s.snk (.fail (.ioError e))))) ∧
    (∀ (op : Op) (bytes pre post : List Byte) (b : Byte) (m snk : Sink) (e : IoErr),
      (op = .wrs ∧ bytes = enc f (q.opndInt.setWidth f.W)) ∨
        (op = .wru ∧ bytes = enc f (zzd (q.opndInt.setWidth f.W))) ∨
        (op = .wrr ∧ (∃ g, g < f.N ∧ continues (repSlot q.opndRep g) = false) ∧ bytes = repBytes f q.opndRep) →
      bytes = pre ++ b :: post → acceptsTo s.snk pre = some m → snkWrite m b = (some (.err e), snk) →
      pre.length < f.N ∧ (snk.out = s.snk.out ++ pre ∨ snk.out = s.snk.out ++ pre ++ [b]) ∧
      exec (.of f op) s = .next (ended s rest s.src snk (.fail (.ioError e))))

/-- 60_exceptions.md R172: which command can end in which failure; R175: the form of its success. -/
def Obligations.FailuresByCommand : Prop :=
  ∀ (i : Instr) (s t : State) (r : Response), exec i s = .next t → t.resps = s.resps ++ [r] →
    (r = .fail .unexpectedEndOfInput → i.op.port = .source) ∧
    (r = .fail .encodingTooLong → i.op.port = .source) ∧
    ((∃ e, r = .fail (.ioError e)) → i.op.port = .source ∨ i.op.port = .sink) ∧
    (r = .okNone → i.op.result = .none) ∧ ((∃ v, r = .okInt v) → i.op.result = .int) ∧
    ((∃ p, r = .okRep p) → i.op.result = .rep)

/-- 60_exceptions.md R174: the machine refuses two inputs, by name and with no response, and no other: a reserved command word,
and an operand with no terminator given to `R2I` or `WRR`. -/
def Obligations.OnlyTwoInputsAreRefused : Prop :=
  (∀ (s : State) (r : Refusal), step s = .refused r →
    s.run = none ∧ ∃ q rest, s.reqs = q :: rest ∧
      ((∃ why, decode q.cmd = .reject why ∧ r = .reservedCommand q.cmd why) ∨
       (∃ i, decode q.cmd = .instr i ∧ (i.op = .r2i ∨ i.op = .wrr) ∧ r = .noTerminator i ∧
         ∀ g, g < i.fam.N → continues (repSlot q.opndRep g) = true))) ∧
  ∀ (s : State) (q : Request) (rest : List Request),
    s.resetIn.head? ≠ some true → s.run = none → s.reqs = q :: rest →
    (∀ why, decode q.cmd = .reject why → step s = .refused (.reservedCommand q.cmd why)) ∧
    (∀ i, decode q.cmd = .instr i → (i.op = .r2i ∨ i.op = .wrr) →
      (∀ g, g < i.fam.N → continues (repSlot q.opndRep g) = true) → step s = .refused (.noTerminator i))

/-- 30_encoding.md R96, 70_reset_and_hazards.md R221: when the ports answer every request, each of the twenty commands, whether
just presented (with a terminator in its Representation operand, if it has one) or waiting, ends with a response in the
step that runs it, after at most `N` bytes written, or at most `N + 1` bytes read where the source has an empty list of moves
(log entry 2); the block is idle and nothing else has changed.
(The spec marks both rules as its own derivations.)
That the whole command is one step is the model's choice (log entry 3). -/
def Obligations.CommandsTerminate : Prop :=
  ∀ (i : Instr) (s : State), RegInv s → sourceAnswers s.src → sinkAnswers s.snk →
    (s.run = some i ∨ ∃ q rest, s.run = none ∧ s.reqs = q :: rest ∧
      (i.op.operand = .rep → ∃ g, g < i.fam.N ∧ continues (repSlot q.opndRep g) = false)) →
    ∃ (r : Response) (src : Source) (snk : Sink),
      exec i s = .next (ended s (if s.run = none then s.reqs.tail else s.reqs) src snk r) ∧
      (s.src.script = [] → src.pos ≤ s.src.pos + (i.fam.N + 1)) ∧
      (∃ l, snk.out = s.snk.out ++ l ∧ l.length ≤ i.fam.N)

/-- 60_exceptions.md R171: the status codes and the fields of a failure. -/
def Obligations.StatusCodes : Prop :=
  (∀ v r, statusField .okNone = 0 ∧ statusField (.okInt v) = 0 ∧ statusField (.okRep r) = 0) ∧
  statusField (.fail .unexpectedEndOfInput) = 1 ∧ statusField (.fail .encodingTooLong) = 2 ∧
  (∀ e, statusField (.fail (.ioError e)) = 3 ∧ ioCodeField (.fail (.ioError e)) = some e) ∧
  (∀ k, resIntField (.fail k) = 0 ∧ resRepField (.fail k) = 0) ∧
  (∀ v r, resIntField (.okInt v) = v ∧ resRepField (.okInt v) = 0 ∧ resRepField (.okRep r) = r ∧
    resIntField (.okRep r) = 0 ∧ resIntField .okNone = 0 ∧ resRepField .okNone = 0)

/-- 10_state.md R23: every Representation the block produces is well formed, and so is the default value.
(That they are well formed the spec marks as its own derivation.) -/
def Obligations.RepresentationsAreWellFormed : Prop :=
  (∀ f, repWF f defaultRep = true) ∧
  ∀ (i : Instr) (s t : State) (r : RepField), RegInv s → exec i s = .next t → t.resps = s.resps ++ [Response.okRep r] →
    repWF i.fam r = true
end

