-- ==== Sys2Proof/Laws/State.lean ====
section
/-! SUPPORT. One lemma per field for each operation that updates the state. -/

namespace Sys2Proof.Machine

/-! ### `clearWork`: the working registers at their idle values -/

@[simp] theorem clearWork_run (s : State) : (clearWork s).run = none := rfl
@[simp] theorem clearWork_acc (s : State) : (clearWork s).acc = 0 := rfl
@[simp] theorem clearWork_rem (s : State) : (clearWork s).rem = 0 := rfl
@[simp] theorem clearWork_gidx (s : State) : (clearWork s).gidx = 0 := rfl
@[simp] theorem clearWork_buf (s : State) : (clearWork s).buf = zeroSlots := rfl
@[simp] theorem clearWork_reqs (s : State) : (clearWork s).reqs = s.reqs := rfl
@[simp] theorem clearWork_resps (s : State) : (clearWork s).resps = s.resps := rfl
@[simp] theorem clearWork_resetIn (s : State) : (clearWork s).resetIn = s.resetIn := rfl
@[simp] theorem clearWork_src (s : State) : (clearWork s).src = s.src := rfl
@[simp] theorem clearWork_snk (s : State) : (clearWork s).snk = s.snk := rfl

/-! ### `resetBlock`: the same -/

@[simp] theorem resetBlock_run (s : State) : (resetBlock s).run = none := rfl
@[simp] theorem resetBlock_acc (s : State) : (resetBlock s).acc = 0 := rfl
@[simp] theorem resetBlock_rem (s : State) : (resetBlock s).rem = 0 := rfl
@[simp] theorem resetBlock_gidx (s : State) : (resetBlock s).gidx = 0 := rfl
@[simp] theorem resetBlock_buf (s : State) : (resetBlock s).buf = zeroSlots := rfl
@[simp] theorem resetBlock_reqs (s : State) : (resetBlock s).reqs = s.reqs := rfl
@[simp] theorem resetBlock_resps (s : State) : (resetBlock s).resps = s.resps := rfl
@[simp] theorem resetBlock_resetIn (s : State) : (resetBlock s).resetIn = s.resetIn := rfl
@[simp] theorem resetBlock_src (s : State) : (resetBlock s).src = s.src := rfl
@[simp] theorem resetBlock_snk (s : State) : (resetBlock s).snk = s.snk := rfl

/-! ### `complete`: idle, and the response delivered -/

@[simp] theorem complete_run (r : Response) (s : State) : (complete r s).run = none := rfl
@[simp] theorem complete_acc (r : Response) (s : State) : (complete r s).acc = 0 := rfl
@[simp] theorem complete_rem (r : Response) (s : State) : (complete r s).rem = 0 := rfl
@[simp] theorem complete_gidx (r : Response) (s : State) : (complete r s).gidx = 0 := rfl
@[simp] theorem complete_buf (r : Response) (s : State) : (complete r s).buf = zeroSlots := rfl
@[simp] theorem complete_reqs (r : Response) (s : State) : (complete r s).reqs = s.reqs := rfl
@[simp] theorem complete_resps (r : Response) (s : State) : (complete r s).resps = s.resps ++ [r] := rfl
@[simp] theorem complete_resetIn (r : Response) (s : State) : (complete r s).resetIn = s.resetIn := rfl
@[simp] theorem complete_src (r : Response) (s : State) : (complete r s).src = s.src := rfl
@[simp] theorem complete_snk (r : Response) (s : State) : (complete r s).snk = s.snk := rfl

/-! ### `raise`: idle, and the failure delivered -/

@[simp] theorem raise_run (k : Failure) (s : State) : (raise k s).run = none := rfl
@[simp] theorem raise_acc (k : Failure) (s : State) : (raise k s).acc = 0 := rfl
@[simp] theorem raise_rem (k : Failure) (s : State) : (raise k s).rem = 0 := rfl
@[simp] theorem raise_gidx (k : Failure) (s : State) : (raise k s).gidx = 0 := rfl
@[simp] theorem raise_buf (k : Failure) (s : State) : (raise k s).buf = zeroSlots := rfl
@[simp] theorem raise_reqs (k : Failure) (s : State) : (raise k s).reqs = s.reqs := rfl
@[simp] theorem raise_resps (k : Failure) (s : State) : (raise k s).resps = s.resps ++ [.fail k] := rfl
@[simp] theorem raise_resetIn (k : Failure) (s : State) : (raise k s).resetIn = s.resetIn := rfl
@[simp] theorem raise_src (k : Failure) (s : State) : (raise k s).src = s.src := rfl
@[simp] theorem raise_snk (k : Failure) (s : State) : (raise k s).snk = s.snk := rfl

/-! ### `accept`: the command taken -/

@[simp] theorem accept_run (i : Instr) (rest : List Request) (s : State) : (accept i rest s).run = some i := rfl
@[simp] theorem accept_acc (i : Instr) (rest : List Request) (s : State) : (accept i rest s).acc = 0 := rfl
@[simp] theorem accept_rem (i : Instr) (rest : List Request) (s : State) : (accept i rest s).rem = 0 := rfl
@[simp] theorem accept_gidx (i : Instr) (rest : List Request) (s : State) : (accept i rest s).gidx = 0 := rfl
@[simp] theorem accept_buf (i : Instr) (rest : List Request) (s : State) : (accept i rest s).buf = zeroSlots := rfl
@[simp] theorem accept_reqs (i : Instr) (rest : List Request) (s : State) : (accept i rest s).reqs = rest := rfl
@[simp] theorem accept_resps (i : Instr) (rest : List Request) (s : State) : (accept i rest s).resps = s.resps := rfl
@[simp] theorem accept_resetIn (i : Instr) (rest : List Request) (s : State) : (accept i rest s).resetIn = s.resetIn := rfl
@[simp] theorem accept_src (i : Instr) (rest : List Request) (s : State) : (accept i rest s).src = s.src := rfl
@[simp] theorem accept_snk (i : Instr) (rest : List Request) (s : State) : (accept i rest s).snk = s.snk := rfl

/-! ### `ended`, the explicit form of a finished command -/

section ended

variable (s : State) (rest : List Request) (src : Source) (snk : Sink) (r : Response)

@[simp] theorem ended_run : (ended s rest src snk r).run = none := rfl
@[simp] theorem ended_acc : (ended s rest src snk r).acc = 0 := rfl
@[simp] theorem ended_rem : (ended s rest src snk r).rem = 0 := rfl
@[simp] theorem ended_gidx : (ended s rest src snk r).gidx = 0 := rfl
@[simp] theorem ended_buf : (ended s rest src snk r).buf = zeroSlots := rfl
@[simp] theorem ended_reqs : (ended s rest src snk r).reqs = rest := rfl
@[simp] theorem ended_resps : (ended s rest src snk r).resps = s.resps ++ [r] := rfl
@[simp] theorem ended_resetIn : (ended s rest src snk r).resetIn = s.resetIn := rfl
@[simp] theorem ended_src : (ended s rest src snk r).src = src := rfl
@[simp] theorem ended_snk : (ended s rest src snk r).snk = snk := rfl

end ended

/-- Ending a command, field by field. -/
theorem complete_eq_ended (r : Response) (s : State) : complete r s = ended s s.reqs s.src s.snk r := rfl

/-- Raising a failure, field by field. -/
theorem raise_eq_ended (k : Failure) (s : State) : raise k s = ended s s.reqs s.src s.snk (.fail k) := rfl

end Sys2Proof.Machine
end

