-- ==== Sys2Proof/Laws/Slots.lean ====
section
/-! SUPPORT. Lemmas about encoded bytes and groups, the slots of `BUF` and of a Representation field, and the two zigzag maps as
numbers. -/

namespace Sys2Proof.Machine

open Sys2Proof

/-! ### bytes and groups -/

theorem fam_N_le (f : Fam) : f.N ≤ 10 := by cases f <;> decide
theorem fam_W_le (f : Fam) : f.W ≤ 64 := by cases f <;> decide
theorem fam_W_le_groups (f : Fam) : f.W ≤ 7 * f.N := by cases f <;> decide
theorem fam_N_pos (f : Fam) : 0 < f.N := by cases f <;> decide

@[simp] theorem regValue_toReg (f : Fam) (v : BitVec f.W) : regValue f (toReg f v) = v := by
  cases f <;> exact BitVec.setWidth_setWidth_of_le _ (by decide) |>.trans (BitVec.setWidth_eq _)

@[simp] theorem continues_mkByte (c : Bool) (g : Group) : continues (mkByte c g) = c := by
  have h : (mkByte c g).getLsbD 7 = c := by
    rw [mkByte, BitVec.getLsbD_append]
    simp
  exact h

@[simp] theorem groupOf_mkByte (c : Bool) (g : Group) : groupOf (mkByte c g) = g := by
  ext i hi
  rw [← BitVec.getLsbD_eq_getElem, ← BitVec.getLsbD_eq_getElem, groupOf, BitVec.getLsbD_extractLsb', mkByte,
    BitVec.getLsbD_append]
  simp [hi]

@[simp] theorem continues_encByte {w : Nat} (r : BitVec w) : continues (encByte r) = (nextRem r != 0) := by
  simp [encByte]

@[simp] theorem groupOf_encByte {w : Nat} (r : BitVec w) : groupOf (encByte r) = lowGroup r := by
  simp [encByte]

theorem placeGroup_getLsbD (w g : Nat) (b : Byte) (i : Nat) :
    (placeGroup w g b).getLsbD i = (decide (i < w) && (decide (7 * g ≤ i) && decide (i < 7 * g + 7) && b.getLsbD (i - 7 * g))) := by
  unfold placeGroup groupOf
  rw [BitVec.getLsbD_shiftLeft, BitVec.getLsbD_setWidth, BitVec.getLsbD_extractLsb']
  by_cases h2 : i < 7 * g
  · simp [h2, show ¬ 7 * g ≤ i by omega]
  · by_cases h1 : i < w
    · simp [h1, h2, show i - 7 * g < w by omega, show 7 * g ≤ i by omega,
        show (i - 7 * g < 7) = (i < 7 * g + 7) by simp; omega]
    · simp [h1]

theorem assembleFrom_append (w g : Nat) (bs cs : List Byte) :
    assembleFrom w g (bs ++ cs) = assembleFrom w g bs ||| assembleFrom w (g + bs.length) cs := by
  induction bs generalizing g with
  | nil => simp [assembleFrom]
  | cons b bs ih => simp [assembleFrom, ih, BitVec.or_assoc, Nat.add_assoc, Nat.add_comm 1]

theorem assemble_snoc (w : Nat) (bs : List Byte) (b : Byte) :
    assemble w (bs ++ [b]) = assemble w bs ||| placeGroup w bs.length b := by
  simp [assemble, assembleFrom_append, assembleFrom]

/-! ### slots -/

theorem slotGet_of_lt (b : Slots) {g : Nat} (h : g < 10) : slotGet b g = b[g] := by simp [slotGet, h]
theorem slotGet_of_ge (b : Slots) {g : Nat} (h : 10 ≤ g) : slotGet b g = 0 := by
  simp [slotGet, Vector.getElem?_eq_none h]

theorem slots_ext {b c : Slots} (h : ∀ g, g < 10 → slotGet b g = slotGet c g) : b = c := by
  ext g hg : 1
  simpa [slotGet, hg] using h g hg

@[simp] theorem slotGet_zeroSlots (g : Nat) : slotGet zeroSlots g = 0 := by
  by_cases h : g < 10
  · simp [slotGet, zeroSlots, h]
  · exact slotGet_of_ge _ (by omega)

theorem slotGet_slotSet (b : Slots) (g j : Nat) (x : Byte) :
    slotGet (slotSet b g x) j = if g = j ∧ j < 10 then x else slotGet b j := by
  by_cases h : j < 10
  · simp [slotGet, slotSet, h, Vector.getElem_setIfInBounds]
  · rw [slotGet_of_ge _ (by omega), slotGet_of_ge _ (by omega)]; simp [h]

theorem slotGet_padded (bs : List Byte) (g : Nat) : slotGet (padded bs) g = if g < 10 then bs.getD g 0 else 0 := by
  by_cases h : g < 10
  · simp [slotGet, padded, h]
  · rw [slotGet_of_ge _ (by omega)]; simp [h]

theorem padded_nil : padded [] = zeroSlots := slots_ext fun g _ => by simp [slotGet_padded]

theorem slotSet_padded (bs : List Byte) (b : Byte) :
    slotSet (padded bs) bs.length b = padded (bs ++ [b]) := slots_ext fun g hg => by
  rw [slotGet_slotSet, slotGet_padded, slotGet_padded]
  simp only [hg, and_true, if_true]
  rcases Nat.lt_trichotomy g bs.length with h1 | h1 | h1
  · rw [if_neg (by omega), List.getD_append _ _ _ _ h1]
  · simp [h1]
  · rw [if_neg (by omega), List.getD_eq_default _ _ (by omega), List.getD_eq_default]
    simp; omega

theorem slotGet_repOperand (f : Fam) (q : Request) (g : Nat) :
    slotGet (repOperand f q) g = if g < f.N then repSlot q.opndRep g else 0 := by
  by_cases h : g < 10
  · simp [slotGet, repOperand, h]
  · have := fam_N_le f
    rw [slotGet_of_ge _ (by omega), if_neg (by omega)]

theorem getLsbD_foldr_slots (b : Slots) (l : List Nat) (i : Nat) (hi : i < 80) :
    (l.foldr (fun g r => (slotGet b g).setWidth 80 <<< (8 * g) ||| r) (0 : RepField)).getLsbD i =
      l.any fun g => decide (8 * g ≤ i) && (slotGet b g).getLsbD (i - 8 * g) := by
  induction l with
  | nil => simp
  | cons g l ih =>
    simp only [List.foldr_cons, BitVec.getLsbD_or, ih, List.any_cons, BitVec.getLsbD_shiftLeft, BitVec.getLsbD_setWidth, hi, decide_true, Bool.true_and]
    by_cases h : i < 8 * g
    · simp [h, show ¬ 8 * g ≤ i by omega]
    · simp [h, show i - 8 * g < 80 by omega, show 8 * g ≤ i by omega]

theorem repSlot_repResult (f : Fam) (b : Slots) (g : Nat) (hg : g < 10) :
    repSlot (repResult f b) g = if g < f.N then slotGet b g else 0 := by
  ext i hi
  rw [← BitVec.getLsbD_eq_getElem, ← BitVec.getLsbD_eq_getElem]
  unfold repSlot repResult
  rw [BitVec.getLsbD_extractLsb', getLsbD_foldr_slots _ _ _ (by omega)]
  simp only [hi, decide_true, Bool.true_and]
  rw [Bool.eq_iff_iff]
  simp only [List.any_eq_true, List.mem_range, Bool.and_eq_true, decide_eq_true_eq]
  constructor
  · rintro ⟨j, hj, h1, h2⟩
    have : 8*g + i - 8*j < 8 := by
      by_contra hc
      rw [BitVec.getLsbD_of_ge _ _ (by omega)] at h2; simp at h2
    have hgj : j = g := by omega
    subst hgj
    simp [hj]; simpa using h2
  · split
    · intro h; exact ⟨g, by assumption, by omega, by simpa using h⟩
    · simp

theorem rep_ext {r r' : RepField} (h : ∀ g, g < 10 → repSlot r g = repSlot r' g) : r = r' := by
  ext i hi
  have := congrArg (fun b : Byte => b.getLsbD (i % 8)) (h (i / 8) (by omega))
  simp only [repSlot, BitVec.getLsbD_extractLsb', show i % 8 < 8 by omega, decide_true, Bool.true_and, show 8 * (i/8) + i % 8 = i by omega] at this
  rw [← BitVec.getLsbD_eq_getElem, ← BitVec.getLsbD_eq_getElem, this]

/-! ### the remaining value of the encoder -/

theorem nextRem_eq_zero_iff {w : Nat} (v : BitVec w) : nextRem v = 0 ↔ v.toNat < 128 := by
  rw [← BitVec.toNat_inj]
  simp [nextRem, BitVec.toNat_ushiftRight, Nat.shiftRight_eq_div_pow]

theorem nextRem_toNat {w : Nat} (v : BitVec w) : (nextRem v).toNat = v.toNat / 128 := by
  simp [nextRem, BitVec.toNat_ushiftRight, Nat.shiftRight_eq_div_pow]

theorem extract_nextRem {w : Nat} (v : BitVec w) (k : Nat) : (nextRem v).extractLsb' k 7 = v.extractLsb' (k + 7) 7 := by
  ext i hi
  simp [nextRem]; congr 1; omega

theorem take_padded (bs : List Byte) (h : bs.length ≤ 10) : (padded bs).toList.take bs.length = bs := by
  apply List.ext_getElem
  · simp [h]
  · intro g h1 h2
    simp [padded, h2]

/-! ### the zigzag maps as numbers -/

theorem zze_toNat (f : Fam) (v : BitVec f.W) :
    (zze v).toNat = if v.toNat < 2 ^ (f.W - 1) then 2 * v.toNat else 2 * (2 ^ f.W - v.toNat) - 1 := by
  have := v.isLt
  have hm : v.msb = decide (2 ^ (f.W - 1) ≤ v.toNat) := BitVec.msb_eq_decide v
  by_cases h : 2 ^ (f.W - 1) ≤ v.toNat
  · rw [if_neg (by omega), zze, if_pos (by simp [hm, h])]
    cases f <;> simp only [Fam.W] at * <;>
      simp [BitVec.toNat_sub, BitVec.toNat_shiftLeft, Nat.shiftLeft_eq] at * <;> omega
  · rw [if_pos (by omega), zze, if_neg (by simp [hm, h])]
    cases f <;> simp only [Fam.W] at * <;>
      simp [BitVec.toNat_shiftLeft, Nat.shiftLeft_eq] at * <;> omega

theorem zzd_toNat (f : Fam) (v : BitVec f.W) :
    (zzd v).toNat = if v.toNat % 2 = 0 then v.toNat / 2 else 2 ^ f.W - 1 - v.toNat / 2 := by
  have := v.isLt
  have hb : v.getLsbD 0 = decide (v.toNat % 2 = 1) := by simp [BitVec.getLsbD]
  by_cases h : v.toNat % 2 = 1
  · rw [if_neg (by omega), zzd, if_pos (by simp [hb, h])]
    cases f <;> simp only [Fam.W] at * <;>
      simp [BitVec.toNat_sub, BitVec.toNat_ushiftRight, Nat.shiftRight_eq_div_pow] at * <;> omega
  · rw [if_pos (by omega), zzd, if_neg (by simp [hb, h])]
    simp [BitVec.toNat_ushiftRight, Nat.shiftRight_eq_div_pow]

end Sys2Proof.Machine
end

