-- ==== Sys2Proof/Laws/Run.lean ====
section
/-! SUPPORT. Running beats: the general lemmas of `runBeats`, `runCommand` and `mapCommand`, and the loops of the decoder and of
the encoder from any waiting state, with every answer of the port. -/

namespace Sys2Proof.Machine

open Sys2Proof

/-! ### run beats -/

theorem runBeats_go {beat : State → Beat} {s s' : State} (n : Nat) (h : beat s = .go s') :
    runBeats beat (n + 1) s = runBeats beat n s' := by simp [runBeats, h]
theorem runBeats_wait {beat : State → Beat} {s s' : State} (n : Nat) (h : beat s = .wait s') :
    runBeats beat (n + 1) s = s' := by simp [runBeats, h]
theorem runBeats_done {beat : State → Beat} {s s' : State} (n : Nat) (h : beat s = .done s') :
    runBeats beat (n + 1) s = s' := by simp [runBeats, h]

/-- What holds of a command's states holds of the state in which its beats leave the block. -/
theorem runBeats_induct {beat : State → Beat} {P : State → Prop} {Q : State → Prop}
    (hgo : ∀ s s', P s → beat s = .go s' → P s') (hwait : ∀ s s', P s → beat s = .wait s' → Q s')
    (hdone : ∀ s s', P s → beat s = .done s' → Q s') (n : Nat) (s : State) (hs : P s) :
    P (runBeats beat n s) ∨ Q (runBeats beat n s) := by
  induction n generalizing s with
  | zero => exact .inl hs
  | succ n ih =>
    cases h : beat s with
    | go s' => rw [runBeats_go n h]; exact ih s' (hgo s s' hs h)
    | wait s' => rw [runBeats_wait n h]; exact .inr (hwait s s' hs h)
    | done s' => rw [runBeats_done n h]; exact .inr (hdone s s' hs h)

theorem runCommand_idle {i : Instr} {check load beat s q rest} (h : s.run = none) (hq : s.reqs = q :: rest)
    (hc : check q = none) :
    runCommand i check load beat s = .next (runBeats beat (beatBound i.fam) (load q (accept i rest s))) := by
  simp [runCommand, h, hq, hc]

theorem runCommand_refused {i : Instr} {check load beat s q rest r} (h : s.run = none) (hq : s.reqs = q :: rest)
    (hc : check q = some r) : runCommand i check load beat s = .refused r := by
  simp [runCommand, h, hq, hc]

theorem runCommand_running {i : Instr} {check load beat s} (h : s.run = some i) :
    runCommand i check load beat s = .next (runBeats beat (beatBound i.fam) s) := by
  simp [runCommand, h]

theorem mapCommand_idle {value s q rest} (h : s.run = none) (hq : s.reqs = q :: rest) :
    mapCommand value s = .next (ended s rest s.src s.snk (value q)) := by
  simp [mapCommand, h, hq]; rfl

/-! ### decoder -/

theorem accumulate_assemble (f : Fam) (bs : List Byte) (b : Byte) :
    accumulate f (toReg f (assemble f.W bs)) bs.length b = toReg f (assemble f.W (bs ++ [b])) := by
  simp [accumulate, assemble_snoc]

section decode
variable {i : Instr} {finish : BitVec i.fam.W → Slots → Response} {s : State} {rest : List Request}
  {bs : List Byte} {src m : Source} {b : Byte} {e : IoErr}

theorem waitingRead_gidx (hl : bs.length ≤ i.fam.N) : (waitingRead i s rest bs src).gidx.toNat = bs.length := by
  have := fam_N_le i.fam
  simp [waitingRead]; omega

theorem decodeBeat_none (h : srcRead src = (none, m)) :
    decodeBeat i.fam finish (waitingRead i s rest bs src) = .wait (waitingRead i s rest bs m) := by
  simp [decodeBeat, waitingRead, h]

theorem decodeBeat_eoi (h : srcRead src = (some .eoi, m)) :
    decodeBeat i.fam finish (waitingRead i s rest bs src) =
      .done (ended s rest m s.snk (.fail .unexpectedEndOfInput)) := by
  simp [decodeBeat, waitingRead, h]; rfl

theorem decodeBeat_err (h : srcRead src = (some (.err e), m)) :
    decodeBeat i.fam finish (waitingRead i s rest bs src) = .done (ended s rest m s.snk (.fail (.ioError e))) := by
  simp [decodeBeat, waitingRead, h]; rfl

theorem decodeBeat_tooLong (h : srcRead src = (some (.byte b), m)) (hl : bs.length = i.fam.N) :
    decodeBeat i.fam finish (waitingRead i s rest bs src) =
      .done (ended s rest m s.snk (.fail .encodingTooLong)) := by
  have hg := waitingRead_gidx (s := s) (rest := rest) (src := src) hl.le
  have hs : srcRead (waitingRead i s rest bs src).src = (some (.byte b), m) := h
  rw [decodeBeat, hs]
  simp only [hg, hl, if_true]; rfl

theorem decodeBeat_terminator (h : srcRead src = (some (.byte b), m)) (hl : bs.length < i.fam.N)
    (hb : continues b = false) :
    decodeBeat i.fam finish (waitingRead i s rest bs src) =
      .done (ended s rest m s.snk (finish (assemble i.fam.W (bs ++ [b])) (padded (bs ++ [b])))) := by
  have hg := waitingRead_gidx (s := s) (rest := rest) (src := src) hl.le
  have hs : srcRead (waitingRead i s rest bs src).src = (some (.byte b), m) := h
  have ha : accumulate i.fam (waitingRead i s rest bs src).acc bs.length b = _ := accumulate_assemble i.fam bs b
  have hp : slotSet (waitingRead i s rest bs src).buf bs.length b = _ := slotSet_padded bs b
  rw [decodeBeat, hs]
  simp only [hg, hl.ne, if_false, hb, ha, hp, regValue_toReg, Bool.false_eq_true]
  rfl

theorem decodeBeat_go (h : srcRead src = (some (.byte b), m)) (hl : bs.length < i.fam.N)
    (hb : continues b = true) :
    decodeBeat i.fam finish (waitingRead i s rest bs src) = .go (waitingRead i s rest (bs ++ [b]) m) := by
  have hg := waitingRead_gidx (s := s) (rest := rest) (src := src) hl.le
  have hs : srcRead (waitingRead i s rest bs src).src = (some (.byte b), m) := h
  have ha : accumulate i.fam (waitingRead i s rest bs src).acc bs.length b = _ := accumulate_assemble i.fam bs b
  have hp : slotSet (waitingRead i s rest bs src).buf bs.length b = _ := slotSet_padded bs b
  have hn : (waitingRead i s rest bs src).gidx + 1 = BitVec.ofNat 4 (bs ++ [b]).length := by
    simp [waitingRead, BitVec.ofNat_add]
  rw [decodeBeat, hs]
  simp only [hg, hl.ne, if_false, hb, ha, hp, if_true, hn]
  rfl

end decode

theorem servesTo_cons {src m : Source} {b : Byte} {bs : List Byte} (h : servesTo src (b :: bs) = some m) :
    ∃ m', srcRead src = (some (.byte b), m') ∧ servesTo m' bs = some m := by
  simp only [servesTo] at h
  split at h
  · exact ⟨_, Prod.ext (by assumption) rfl, h⟩
  · simp at h

/-- The decoder's loop over bytes that all have bit 7 set. -/
theorem runBeats_decode {i : Instr} (finish : BitVec i.fam.W → Slots → Response) (s : State) (rest : List Request)
    (n : Nat) (pre bs : List Byte) (src m : Source) (hbs : ∀ b ∈ bs, continues b = true)
    (hl : (pre ++ bs).length ≤ i.fam.N) (hm : servesTo src bs = some m) :
    runBeats (decodeBeat i.fam finish) (n + bs.length) (waitingRead i s rest pre src) =
      runBeats (decodeBeat i.fam finish) n (waitingRead i s rest (pre ++ bs) m) := by
  induction bs generalizing pre src with
  | nil => simp [servesTo] at hm; simp [hm]
  | cons b bs ih =>
    obtain ⟨m', h1, h2⟩ := servesTo_cons hm
    simp at hl hbs
    rw [List.length_cons, ← Nat.add_assoc, runBeats_go _ (decodeBeat_go h1 (by omega) hbs.1),
      ih (pre ++ [b]) m' hbs.2 (by simp; omega) h2]
    simp

/-- From a waiting (or just accepted) decoder command, every answer of the source. -/
theorem readOutcome_runBeats {i : Instr} (finish : BitVec i.fam.W → Slots → Response) (s : State) (rest : List Request)
    (pre bs : List Byte) (src m : Source) (hbs : ∀ b ∈ bs, continues b = true)
    (hl : (pre ++ bs).length ≤ i.fam.N) (hm : servesTo src bs = some m) :
    readOutcome i (fun l => finish (assemble i.fam.W l) (padded l)) s rest (pre ++ bs) m
      (.next (runBeats (decodeBeat i.fam finish) (beatBound i.fam) (waitingRead i s rest pre src))) := by
  have hk : beatBound i.fam = (i.fam.N - bs.length + 1) + bs.length := by
    simp at hl; simp [beatBound]; omega
  rw [hk, runBeats_decode finish s rest _ pre bs src m hbs hl hm]
  refine ⟨fun m' h => ?_, fun e m' h => ?_, fun b m' h hN => ?_, fun b m' h hN hb => ?_, fun m' h => ?_⟩
  · rw [runBeats_done _ (decodeBeat_eoi h)]
  · rw [runBeats_done _ (decodeBeat_err h)]
  · rw [runBeats_done _ (decodeBeat_tooLong h hN)]
  · rw [runBeats_done _ (decodeBeat_terminator h hN hb)]
  · rw [runBeats_wait _ (decodeBeat_none h)]

theorem accept_eq_waitingRead (i : Instr) (rest : List Request) (s : State) :
    accept i rest s = waitingRead i s rest [] s.src := by
  simp [accept, clearWork, waitingRead, padded_nil, assemble, assembleFrom, toReg]

/-! ### encoder -/

theorem encGroups_split {w : Nat} (n : Nat) (v : BitVec w) (pre post : List Byte) (b : Byte)
    (h : encGroups n v = pre ++ b :: post) :
    b = encByte (v >>> (7 * pre.length)) ∧ pre.length < n ∧
      (∀ x ∈ pre, continues x = true) ∧
      (post = [] ↔ nextRem (v >>> (7 * pre.length)) = 0 ∨ pre.length + 1 = n) := by
  induction n generalizing v pre with
  | zero => simp [encGroups] at h
  | succ n ih =>
    cases pre with
    | nil =>
      simp only [encGroups, List.nil_append, List.cons.injEq] at h
      obtain ⟨rfl, rfl⟩ := h
      refine ⟨by simp, by simp, by simp, ?_⟩
      by_cases hz : nextRem v = 0
      · simp [hz]
      · cases n with
        | zero => simp [encGroups]
        | succ n => simp [encGroups]
    | cons a pre =>
      simp only [encGroups, List.cons_append, List.cons.injEq] at h
      obtain ⟨rfl, h⟩ := h
      by_cases hz : nextRem v = 0
      · simp [hz] at h
      · rw [if_neg hz] at h
        obtain ⟨h1, h2, h3, h4⟩ := ih _ _ h
        have e : nextRem v >>> (7 * pre.length) = v >>> (7 * (pre.length + 1)) := by
          rw [nextRem, ← BitVec.shiftRight_add]; congr 1; omega
        rw [e] at h1 h4
        refine ⟨by simpa using h1, by simpa using h2, ?_, by simpa using h4⟩
        intro x hx
        rcases List.mem_cons.1 hx with rfl | hx
        · simpa using hz
        · exact h3 x hx

theorem nextRem_shift_last (f : Fam) (v : BitVec f.W) (k : Nat) (h : k + 1 = f.N) :
    nextRem (v >>> (7 * k)) = 0 := by
  have hw := fam_W_le_groups f
  have hv : v.toNat < 2 ^ (7 * k + 7) :=
    lt_of_lt_of_le v.isLt (Nat.pow_le_pow_right (by decide) (by omega))
  apply BitVec.eq_of_toNat_eq
  rw [nextRem, ← BitVec.shiftRight_add, BitVec.toNat_ushiftRight, Nat.shiftRight_eq_div_pow, Nat.div_eq_of_lt hv]
  rfl

theorem enc_split {f : Fam} {v : BitVec f.W} {pre post : List Byte} {b : Byte} (h : enc f v = pre ++ b :: post) :
    b = encByte (v >>> (7 * pre.length)) ∧ pre.length < f.N ∧ (∀ x ∈ pre, continues x = true) ∧
      (post = [] ↔ nextRem (v >>> (7 * pre.length)) = 0) := by
  obtain ⟨h1, h2, h3, h4⟩ := encGroups_split _ _ _ _ _ h
  refine ⟨h1, h2, h3, h4.trans ⟨?_, .inl⟩⟩
  rintro (h | h)
  · exact h
  · exact nextRem_shift_last f v _ h

theorem acceptsTo_cons {snk m : Sink} {b : Byte} {bs : List Byte} (h : acceptsTo snk (b :: bs) = some m) :
    ∃ m', snkWrite snk b = (some .ok, m') ∧ acceptsTo m' bs = some m := by
  simp only [acceptsTo] at h
  split at h
  · exact ⟨_, Prod.ext (by assumption) rfl, h⟩
  · simp at h

section encode
variable {i : Instr} {s : State} {rest : List Request} {v : BitVec i.fam.W} {n : Nat} {snk m : Sink} {e : IoErr}

theorem waitingEncode_rem : regValue i.fam (waitingEncode i s rest v n snk).rem = v >>> (7 * n) := by
  simp [waitingEncode]

theorem encodeBeat_none (h : snkWrite snk (encByte (v >>> (7 * n))) = (none, m)) :
    encodeBeat i.fam (waitingEncode i s rest v n snk) = .wait (waitingEncode i s rest v n m) := by
  simp only [encodeBeat, waitingEncode_rem]
  simp [waitingEncode, h]

theorem encodeBeat_err (h : snkWrite snk (encByte (v >>> (7 * n))) = (some (.err e), m)) :
    encodeBeat i.fam (waitingEncode i s rest v n snk) = .done (ended s rest s.src m (.fail (.ioError e))) := by
  simp only [encodeBeat, waitingEncode_rem]
  simp [waitingEncode, h]; rfl

theorem encodeBeat_last (h : snkWrite snk (encByte (v >>> (7 * n))) = (some .ok, m))
    (hz : nextRem (v >>> (7 * n)) = 0) :
    encodeBeat i.fam (waitingEncode i s rest v n snk) = .done (ended s rest s.src m .okNone) := by
  simp only [encodeBeat, waitingEncode_rem]
  simp [waitingEncode, h, hz]; rfl

theorem encodeBeat_go (h : snkWrite snk (encByte (v >>> (7 * n))) = (some .ok, m))
    (hz : nextRem (v >>> (7 * n)) ≠ 0) :
    encodeBeat i.fam (waitingEncode i s rest v n snk) = .go (waitingEncode i s rest v (n + 1) m) := by
  have e : nextRem (v >>> (7 * n)) = v >>> (7 * (n + 1)) := by
    rw [nextRem, ← BitVec.shiftRight_add]; rfl
  simp only [encodeBeat, waitingEncode_rem]
  simp [waitingEncode, h]
  rw [if_neg (show ¬ nextRem (v >>> (7 * n)) = 0#i.fam.W from hz), e, BitVec.ofNat_add]

end encode

theorem runBeats_encode {i : Instr} (s : State) (rest : List Request) (v : BitVec i.fam.W) (n : Nat)
    (pre done post : List Byte) (b : Byte) (snk m : Sink) (h : enc i.fam v = done ++ pre ++ b :: post)
    (hm : acceptsTo snk pre = some m) :
    runBeats (encodeBeat i.fam) (n + pre.length) (waitingEncode i s rest v done.length snk) =
      runBeats (encodeBeat i.fam) n (waitingEncode i s rest v (done ++ pre).length m) := by
  induction pre generalizing done snk with
  | nil => simp [acceptsTo] at hm; simp [hm]
  | cons a pre ih =>
    obtain ⟨m', h1, h2⟩ := acceptsTo_cons hm
    have hs := enc_split (show enc i.fam v = done ++ a :: (pre ++ b :: post) by simp [h])
    rw [hs.1] at h1
    have hz : nextRem (v >>> (7 * done.length)) ≠ 0 := fun hz => by simpa using hs.2.2.2.2 hz
    rw [List.length_cons, ← Nat.add_assoc, runBeats_go _ (encodeBeat_go h1 hz)]
    have := ih (done ++ [a]) m' (by simp [h]) h2
    simpa using this

theorem writeOutcome_encode {i : Instr} (s : State) (rest : List Request) (v : BitVec i.fam.W)
    (done pre post : List Byte) (b : Byte) (snk m : Sink) (h : enc i.fam v = done ++ pre ++ b :: post)
    (hm : acceptsTo snk pre = some m) :
    writeOutcome (waitingEncode i s rest v (done ++ pre).length) s rest b post m
      (.next (runBeats (encodeBeat i.fam) (beatBound i.fam) (waitingEncode i s rest v done.length snk))) := by
  have hs := enc_split h
  have hk : beatBound i.fam = (i.fam.N - pre.length + 1) + pre.length := by
    have := hs.2.1; simp at this; simp [beatBound]; omega
  rw [hk, runBeats_encode s rest v _ pre done post b snk m h hm]
  refine ⟨fun m' h' hp => ?_, fun e m' h' => ?_, fun m' h' => ?_⟩ <;> rw [hs.1] at h'
  · rw [runBeats_done _ (encodeBeat_last h' (hs.2.2.2.1 hp))]
  · rw [runBeats_done _ (encodeBeat_err h')]
  · rw [runBeats_wait _ (encodeBeat_none h')]

theorem loadRem_accept (i : Instr) (value : Request → BitVec i.fam.W) (q : Request) (rest : List Request) (s : State) :
    loadRem i.fam value q (accept i rest s) = waitingEncode i s rest (value q) 0 s.snk := by
  simp [loadRem, accept, clearWork, waitingEncode]

end Sys2Proof.Machine
end

