-- ==== Sys2Proof/Laws/Rep.lean ====
section
/-! SUPPORT. The bytes of a Representation operand, and the loops of `WRR`, `R2I` and `I2R`. -/

namespace Sys2Proof.Machine

open Sys2Proof

/-! ### bytes of a representation -/

theorem upToTerminator_split (l pre post : List Byte) (b : Byte) (h : upToTerminator l = pre ++ b :: post) :
    l[pre.length]? = some b ∧ (∀ x ∈ pre, continues x = true) ∧
      (post = [] ↔ continues b = false ∨ pre.length + 1 = l.length) := by
  induction l generalizing pre with
  | nil => simp [upToTerminator] at h
  | cons a l ih =>
    cases pre with
    | nil =>
      simp only [upToTerminator, List.nil_append, List.cons.injEq] at h
      obtain ⟨rfl, rfl⟩ := h
      refine ⟨by simp, by simp, ?_⟩
      cases hc : continues a
      · simp
      · cases l <;> simp [upToTerminator]
    | cons c pre =>
      simp only [upToTerminator, List.cons_append, List.cons.injEq] at h
      obtain ⟨rfl, h⟩ := h
      cases hc : continues a
      · simp [hc] at h
      · rw [if_pos hc] at h
        obtain ⟨h1, h2, h3⟩ := ih _ h
        refine ⟨by simpa using h1, ?_, by simpa using h3⟩
        intro x hx
        rcases List.mem_cons.1 hx with rfl | hx
        · exact hc
        · exact h2 x hx

theorem repBytes_split {f : Fam} {r : RepField} {pre post : List Byte} {b : Byte}
    (ht : ∃ g, g < f.N ∧ continues (repSlot r g) = false) (h : repBytes f r = pre ++ b :: post) :
    b = repSlot r pre.length ∧ pre.length < f.N ∧ (∀ x ∈ pre, continues x = true) ∧
      (∀ j, j < pre.length → continues (repSlot r j) = true) ∧
      (post = [] ↔ continues b = false) := by
  obtain ⟨h1, h2, h3⟩ := upToTerminator_split _ _ _ _ h
  obtain ⟨hlt, hb⟩ := List.getElem?_eq_some_iff.1 h1
  simp at hlt hb
  have hpre : ∀ j, j < pre.length → continues (repSlot r j) = true := by
    intro j hj
    have hsub : upToTerminator ((List.range f.N).map (repSlot r)) =
        pre.take j ++ pre[j] :: (pre.drop (j + 1) ++ b :: post) := by
      rw [show upToTerminator _ = _ from h]
      rw [← List.cons_append, ← List.append_assoc]; simp
    have := (upToTerminator_split _ _ _ _ hsub).1
    simp [show min j pre.length = j by omega, show j < f.N by omega] at this
    rw [this]; exact h2 _ (List.getElem_mem _)
  refine ⟨hb.symm, hlt, h2, hpre, h3.trans ⟨?_, .inl⟩⟩
  rintro (hc | hc)
  · exact hc
  · obtain ⟨g, hg, hg'⟩ := ht
    have : g = pre.length := by
      by_contra hne
      simp at hc
      rw [hpre g (by omega)] at hg'; simp at hg'
    rw [← hb, ← this, hg']

theorem upToTerminator_eq_take (l : List Byte) (k : Nat) (hk : k < l.length) (h1 : continues l[k] = false)
    (h2 : ∀ j (hj : j < k), continues l[j] = true) : upToTerminator l = l.take (k + 1) := by
  induction l generalizing k with
  | nil => simp at hk
  | cons a l ih =>
    cases k with
    | zero => simp at h1; simp [upToTerminator, h1]
    | succ k =>
      have ha : continues a = true := h2 0 (by omega)
      simp only [upToTerminator, ha, if_true, List.take_succ_cons]
      rw [ih k (by simpa using hk) (by simpa using h1) fun j hj => by simpa using h2 (j + 1) (by omega)]

theorem repBytes_eq {f : Fam} {r : RepField} {k : Nat} (hk : k < f.N) (h1 : continues (repSlot r k) = false)
    (h2 : ∀ j, j < k → continues (repSlot r j) = true) : repBytes f r = (List.range (k + 1)).map (repSlot r) := by
  rw [repBytes, upToTerminator_eq_take _ k (by simpa using hk) (by simpa using h1) (by simpa using h2)]
  rw [← List.map_take, List.take_range, Nat.min_eq_left (by omega)]

theorem exists_first_terminator {f : Fam} {r : RepField} (ht : ∃ g, g < f.N ∧ continues (repSlot r g) = false) :
    ∃ k, k < f.N ∧ continues (repSlot r k) = false ∧ ∀ j, j < k → continues (repSlot r j) = true := by
  classical
  refine ⟨Nat.find ht, (Nat.find_spec ht).1, (Nat.find_spec ht).2, fun j hj => ?_⟩
  have := Nat.find_min ht hj
  have hlt : j < f.N := hj.trans (Nat.find_spec ht).1
  simpa [hlt] using this

theorem hasTerminator_iff (f : Fam) (r : RepField) :
    hasTerminator f r = true ↔ ∃ g, g < f.N ∧ continues (repSlot r g) = false := by
  simp [hasTerminator, continues, BitVec.msb_eq_getLsbD_last]

theorem checkTerminator_none {i : Instr} {q : Request} (h : ∃ g, g < i.fam.N ∧ continues (repSlot q.opndRep g) = false) :
    checkTerminator i q = none := by
  rw [checkTerminator, if_pos ((hasTerminator_iff _ _).2 h)]

theorem checkTerminator_some {i : Instr} {q : Request} (h : ∀ g, g < i.fam.N → continues (repSlot q.opndRep g) = true) :
    checkTerminator i q = some (.noTerminator i) := by
  rw [checkTerminator, if_neg]
  rw [hasTerminator_iff]
  rintro ⟨g, hg, hc⟩
  rw [h g hg] at hc; simp at hc

/-! ### `WRR` -/

section write
variable {i : Instr} {s : State} {rest : List Request} {buf : Slots} {n : Nat} {snk m : Sink} {e : IoErr} {b : Byte}

theorem waitingWrite_gidx (h : n < 16) : (waitingWrite i s rest buf n snk).gidx.toNat = n := by
  simp [waitingWrite]; omega

theorem writeBeat_none (hn : n < 16) (hb : slotGet buf n = b) (h : snkWrite snk b = (none, m)) :
    writeBeat (waitingWrite i s rest buf n snk) = .wait (waitingWrite i s rest buf n m) := by
  simp only [writeBeat, waitingWrite_gidx hn]
  simp [waitingWrite, hb, h]

theorem writeBeat_err (hn : n < 16) (hb : slotGet buf n = b) (h : snkWrite snk b = (some (.err e), m)) :
    writeBeat (waitingWrite i s rest buf n snk) = .done (ended s rest s.src m (.fail (.ioError e))) := by
  simp only [writeBeat, waitingWrite_gidx hn]
  simp [waitingWrite, hb, h]; rfl

theorem writeBeat_last (hn : n < 16) (hb : slotGet buf n = b) (h : snkWrite snk b = (some .ok, m))
    (hc : continues b = false) :
    writeBeat (waitingWrite i s rest buf n snk) = .done (ended s rest s.src m .okNone) := by
  simp only [writeBeat, waitingWrite_gidx hn]
  simp [waitingWrite, hb, h, hc]; rfl

theorem writeBeat_go (hn : n < 16) (hb : slotGet buf n = b) (h : snkWrite snk b = (some .ok, m))
    (hc : continues b = true) :
    writeBeat (waitingWrite i s rest buf n snk) = .go (waitingWrite i s rest buf (n + 1) m) := by
  simp only [writeBeat, waitingWrite_gidx hn]
  simp [waitingWrite, hb, h, hc, BitVec.ofNat_add]

end write

theorem runBeats_write {f : Fam} (i : Instr) (s : State) (q : Request) (rest : List Request) (n : Nat)
    (pre done post : List Byte) (b : Byte) (snk m : Sink)
    (ht : ∃ g, g < f.N ∧ continues (repSlot q.opndRep g) = false)
    (h : repBytes f q.opndRep = done ++ pre ++ b :: post) (hm : acceptsTo snk pre = some m) :
    runBeats writeBeat (n + pre.length) (waitingWrite i s rest (repOperand f q) done.length snk) =
      runBeats writeBeat n (waitingWrite i s rest (repOperand f q) (done ++ pre).length m) := by
  induction pre generalizing done snk with
  | nil => simp [acceptsTo] at hm; simp [hm]
  | cons a pre ih =>
    obtain ⟨m', h1, h2⟩ := acceptsTo_cons hm
    have hs := repBytes_split ht (show repBytes f q.opndRep = done ++ a :: (pre ++ b :: post) by simp [h])
    have hN := fam_N_le f
    have hg : slotGet (repOperand f q) done.length = a := by
      rw [slotGet_repOperand, if_pos hs.2.1, hs.1]
    have hc : continues a = true := by
      cases hc : continues a
      · simpa using hs.2.2.2.2.2 hc
      · rfl
    rw [List.length_cons, ← Nat.add_assoc, runBeats_go _ (writeBeat_go (by have := hs.2.1; omega) hg h1 hc)]
    simpa using ih (done ++ [a]) m' (by simp [h]) h2

theorem writeOutcome_write (i : Instr) (s : State) (q : Request) (rest : List Request)
    (done pre post : List Byte) (b : Byte) (snk m : Sink)
    (ht : ∃ g, g < i.fam.N ∧ continues (repSlot q.opndRep g) = false)
    (h : repBytes i.fam q.opndRep = done ++ pre ++ b :: post) (hm : acceptsTo snk pre = some m) :
    writeOutcome (waitingWrite i s rest (repOperand i.fam q) (done ++ pre).length) s rest b post m
      (.next (runBeats writeBeat (beatBound i.fam) (waitingWrite i s rest (repOperand i.fam q) done.length snk))) := by
  have hs := repBytes_split ht h
  have hN := fam_N_le i.fam
  have hlt := hs.2.1
  have hk : beatBound i.fam = (i.fam.N - pre.length + 1) + pre.length := by
    simp at hlt; simp [beatBound]; omega
  rw [hk, runBeats_write i s q rest _ pre done post b snk m ht h hm]
  have hg : slotGet (repOperand i.fam q) (done ++ pre).length = b := by
    rw [slotGet_repOperand, if_pos hs.2.1, hs.1]
  refine ⟨fun m' h' hp => ?_, fun e m' h' => ?_, fun m' h' => ?_⟩
  · rw [runBeats_done _ (writeBeat_last (by omega) hg h' (hs.2.2.2.2.1 hp))]
  · rw [runBeats_done _ (writeBeat_err (by omega) hg h')]
  · rw [runBeats_wait _ (writeBeat_none (by omega) hg h')]

theorem loadBuf_accept (i : Instr) (f : Fam) (q : Request) (rest : List Request) (s : State) :
    loadBuf f q (accept i rest s) = waitingWrite i s rest (repOperand f q) 0 s.snk := by
  simp [loadBuf, accept, clearWork, waitingWrite]

/-! ### `R2I` -/

/-- `R2I` after `bs`. -/
def folding (i : Instr) (s : State) (rest : List Request) (buf : Slots) (bs : List Byte) : State :=
  { waitingWrite i s rest buf bs.length s.snk with acc := toReg i.fam (assemble i.fam.W bs) }

theorem folding_nil (i : Instr) (s : State) (rest : List Request) (buf : Slots) :
    folding i s rest buf [] = waitingWrite i s rest buf 0 s.snk := by
  simp [folding, waitingWrite, assemble, assembleFrom, toReg]

section fold
variable {i : Instr} {s : State} {rest : List Request} {buf : Slots} {bs : List Byte} {b : Byte}

theorem foldStep_go (hn : bs.length < 16) (hb : slotGet buf bs.length = b) (hc : continues b = true) :
    foldStep i.fam (folding i s rest buf bs) = .go (folding i s rest buf (bs ++ [b])) := by
  have hg : (folding i s rest buf bs).gidx.toNat = bs.length := by simp [folding, waitingWrite]; omega
  have hb' : slotGet (folding i s rest buf bs).buf bs.length = b := hb
  have ha : accumulate i.fam (folding i s rest buf bs).acc bs.length b = _ := accumulate_assemble i.fam bs b
  simp only [foldStep, hg, hb', hc, if_true, ha]
  simp [folding, waitingWrite, BitVec.ofNat_add]

theorem foldStep_last (hn : bs.length < 16) (hb : slotGet buf bs.length = b) (hc : continues b = false) :
    foldStep i.fam (folding i s rest buf bs) =
      .done (ended s rest s.src s.snk (.okInt (intResult i.fam (assemble i.fam.W (bs ++ [b]))))) := by
  have hg : (folding i s rest buf bs).gidx.toNat = bs.length := by simp [folding, waitingWrite]; omega
  have hb' : slotGet (folding i s rest buf bs).buf bs.length = b := hb
  have ha : accumulate i.fam (folding i s rest buf bs).acc bs.length b = _ := accumulate_assemble i.fam bs b
  simp only [foldStep, hg, hb', hc, Bool.false_eq_true, if_false, ha, regValue_toReg]
  rfl

end fold

theorem runBeats_fold {f : Fam} (i : Instr) (s : State) (q : Request) (rest : List Request) (k n : Nat)
    (hf : f = i.fam) (hk : k < f.N) (h2 : ∀ j, j < k → continues (repSlot q.opndRep j) = true) (j : Nat) (hj : j ≤ k) :
    runBeats (foldStep f) (n + j) (folding i s rest (repOperand f q) []) =
      runBeats (foldStep f) n (folding i s rest (repOperand f q) ((List.range j).map (repSlot q.opndRep))) := by
  subst hf
  have hN := fam_N_le i.fam
  induction j generalizing n with
  | zero => simp
  | succ j ih =>
    have hgo : foldStep i.fam (folding i s rest (repOperand i.fam q) ((List.range j).map (repSlot q.opndRep))) =
        .go (folding i s rest (repOperand i.fam q) ((List.range j).map (repSlot q.opndRep) ++ [repSlot q.opndRep j])) := by
      apply foldStep_go
      · simp; omega
      · rw [slotGet_repOperand]; simp; intro; omega
      · exact h2 j (by omega)
    rw [show n + (j + 1) = (n + 1) + j by omega, ih (n + 1) (by omega), runBeats_go _ hgo, List.range_succ]
    simp

theorem runBeats_fold_all (i : Instr) (s : State) (q : Request) (rest : List Request) (k : Nat)
    (hk : k < i.fam.N) (h1 : continues (repSlot q.opndRep k) = false)
    (h2 : ∀ j, j < k → continues (repSlot q.opndRep j) = true) :
    runBeats (foldStep i.fam) (beatBound i.fam) (loadBuf i.fam q (accept i rest s)) =
      ended s rest s.src s.snk
        (.okInt (intResult i.fam (assemble i.fam.W ((List.range (k + 1)).map (repSlot q.opndRep))))) := by
  have hN := fam_N_le i.fam
  rw [loadBuf_accept, ← folding_nil, show beatBound i.fam = (i.fam.N - k + 1) + k by simp [beatBound]; omega,
    runBeats_fold i s q rest k _ rfl hk h2 k le_rfl, runBeats_done _ (foldStep_last _ _ h1)]
  · rw [List.range_succ]; simp
  · simp; omega
  · rw [slotGet_repOperand]; simp; intro; omega

/-! ### `I2R` -/

/-- `I2R` after the bytes `bs` of the encoding of `v`. -/
def filling (i : Instr) (s : State) (rest : List Request) (v : BitVec i.fam.W) (bs : List Byte) : State :=
  { waitingEncode i s rest v bs.length s.snk with buf := padded bs }

theorem filling_nil (i : Instr) (s : State) (rest : List Request) (v : BitVec i.fam.W) :
    filling i s rest v [] = waitingEncode i s rest v 0 s.snk := by
  simp [filling, waitingEncode, padded_nil]

section fill
variable {i : Instr} {s : State} {rest : List Request} {v : BitVec i.fam.W} {bs : List Byte}

theorem fillStep_go (hn : bs.length < 16) (hz : nextRem (v >>> (7 * bs.length)) ≠ 0) :
    fillStep i.fam (filling i s rest v bs) =
      .go (filling i s rest v (bs ++ [encByte (v >>> (7 * bs.length))])) := by
  have hg : (filling i s rest v bs).gidx.toNat = bs.length := by simp [filling, waitingEncode]; omega
  have hr : regValue i.fam (filling i s rest v bs).rem = v >>> (7 * bs.length) := by simp [filling, waitingEncode]
  have e : nextRem (v >>> (7 * bs.length)) = v >>> (7 * (bs.length + 1)) := by
    rw [nextRem, ← BitVec.shiftRight_add]; rfl
  have hp : slotSet (filling i s rest v bs).buf bs.length (encByte (v >>> (7 * bs.length))) = _ :=
    slotSet_padded bs _
  simp only [fillStep, hg, hr, hz, if_false, hp]
  simp [filling, waitingEncode, BitVec.ofNat_add, e]

theorem fillStep_last (hn : bs.length < 16) (hz : nextRem (v >>> (7 * bs.length)) = 0) :
    fillStep i.fam (filling i s rest v bs) =
      .done (ended s rest s.src s.snk
        (.okRep (repResult i.fam (padded (bs ++ [encByte (v >>> (7 * bs.length))]))))) := by
  have hg : (filling i s rest v bs).gidx.toNat = bs.length := by simp [filling, waitingEncode]; omega
  have hr : regValue i.fam (filling i s rest v bs).rem = v >>> (7 * bs.length) := by simp [filling, waitingEncode]
  have hp : slotSet (filling i s rest v bs).buf bs.length (encByte (v >>> (7 * bs.length))) = _ :=
    slotSet_padded bs _
  simp only [fillStep, hg, hr, hz, if_true, hp]
  rfl

end fill

theorem runBeats_fill (i : Instr) (s : State) (rest : List Request) (v : BitVec i.fam.W) (n : Nat)
    (done post : List Byte) (b : Byte) (h : enc i.fam v = done ++ b :: post) :
    runBeats (fillStep i.fam) (n + done.length + 1) (filling i s rest v []) =
      runBeats (fillStep i.fam) (n + 1) (filling i s rest v done) := by
  have hN := fam_N_le i.fam
  induction done using List.reverseRecOn generalizing n b post with
  | nil => rfl
  | append_singleton done a ih =>
    have hs := enc_split (show enc i.fam v = done ++ a :: (b :: post) by simp [h])
    have hlt := hs.2.1
    have hz : nextRem (v >>> (7 * done.length)) ≠ 0 := fun hz => by simpa using hs.2.2.2.2 hz
    rw [List.length_append, show n + (done.length + [a].length) + 1 = (n + 1) + done.length + 1 by simp; omega,
      ih (n + 1) (b :: post) a (by simp [h]), runBeats_go _ (fillStep_go (by omega) hz), ← hs.1]

theorem enc_eq_snoc (f : Fam) (v : BitVec f.W) : ∃ bs b, enc f v = bs ++ [b] := by
  rcases List.eq_nil_or_concat (enc f v) with h | ⟨bs, b, h⟩
  · exfalso; revert h
    cases f <;> simp [enc, encGroups]
  · exact ⟨bs, b, by simpa using h⟩

theorem runBeats_fill_all (i : Instr) (s : State) (rest : List Request) (value : Request → BitVec i.fam.W) (q : Request) :
    runBeats (fillStep i.fam) (beatBound i.fam) (loadRem i.fam value q (accept i rest s)) =
      ended s rest s.src s.snk (.okRep (repResult i.fam (padded (enc i.fam (value q))))) := by
  have hN := fam_N_le i.fam
  obtain ⟨bs, b, h⟩ := enc_eq_snoc i.fam (value q)
  have hs := enc_split h
  have hlt := hs.2.1
  rw [loadRem_accept, ← filling_nil, show beatBound i.fam = (i.fam.N - bs.length) + bs.length + 1 by
      simp [beatBound]; omega,
    runBeats_fill i s rest _ _ bs [] b h, runBeats_done _ (fillStep_last (by omega) (hs.2.2.2.1 rfl)), ← hs.1, h]

end Sys2Proof.Machine
end

