-- ==== Sys2Proof/Laws/Exec.lean ====
section
/-! SUPPORT. What `exec` and `step` can do, said once: the parts of a command (`checkOf`, `loadOf`, `beatOf`), the cases of `exec`
and of `step`, what the ports can answer, and what a whole run of beats can change. -/

namespace Sys2Proof.Machine

open Sys2Proof

@[simp] theorem fam_of (f : Fam) (op : Op) : (Instr.of f op).fam = f := by cases f <;> cases op <;> rfl
@[simp] theorem op_of (f : Fam) (op : Op) : (Instr.of f op).op = op := by cases f <;> cases op <;> rfl
theorem of_fam_op (i : Instr) : Instr.of i.fam i.op = i := by cases i <;> rfl

/-- What a one-step command (`ZZE`, `ZZD`) answers. -/
def valueOf (i : Instr) (q : Request) : Response :=
  match i.op with
  | .zze => .okInt (intResult i.fam (zze (intOperand i.fam q)))
  | _ => .okInt (intResult i.fam (zzd (intOperand i.fam q)))

/-- The check of a command at issue. -/
def checkOf (i : Instr) : Request → Option Refusal :=
  match i.op with
  | .r2i | .wrr => checkTerminator i
  | _ => noCheck

/-- What an encoder command loads into `REM` at issue. -/
def remOf (i : Instr) (q : Request) : BitVec i.fam.W :=
  match i.op with
  | .wru => zzd (intOperand i.fam q)
  | _ => intOperand i.fam q

/-- What a command loads at issue. -/
def loadOf (i : Instr) : Request → State → State :=
  match i.op with
  | .r2i | .wrr => loadBuf i.fam
  | .wrs | .wru | .i2r => loadRem i.fam (remOf i)
  | _ => loadNothing

/-- The response a decoder command forms from `ACC` and `BUF`. -/
def finishOf (i : Instr) : BitVec i.fam.W → Slots → Response :=
  match i.op with
  | .rdr => fun _ buf => .okRep (repResult i.fam buf)
  | .rdu => fun acc _ => .okInt (intResult i.fam (zze acc))
  | _ => fun acc _ => .okInt (intResult i.fam acc)

/-- The beat of a command. -/
def beatOf (i : Instr) : State → Beat :=
  match i.op with
  | .rds | .rdr | .rdu => decodeBeat i.fam (finishOf i)
  | .wrs | .wru => encodeBeat i.fam
  | .wrr => writeBeat
  | .r2i => foldStep i.fam
  | _ => fillStep i.fam

/-- Whether a command is complete in one step, with no beat. -/
def isMap (i : Instr) : Bool :=
  match i.op with
  | .zze | .zzd => true
  | _ => false

/-- The meaning of a command from its parts. -/
theorem exec_eq (i : Instr) (s : State) :
    exec i s = if isMap i then mapCommand (valueOf i) s else runCommand i (checkOf i) (loadOf i) (beatOf i) s := by
  cases i <;> rfl

theorem exec_map {i : Instr} (h : isMap i = true) (s : State) : exec i s = mapCommand (valueOf i) s := by
  rw [exec_eq, if_pos h]
theorem exec_run {i : Instr} (h : isMap i = false) (s : State) :
    exec i s = runCommand i (checkOf i) (loadOf i) (beatOf i) s := by
  rw [exec_eq, if_neg (by simp [h])]

/-- Everything `exec` can do when it answers a next state. -/
theorem exec_cases {i : Instr} {s t : State} (h : exec i s = .next t) :
    (t = s ∧ ((s.run = none ∧ s.reqs = []) ∨ ∃ j, s.run = some j ∧ (j ≠ i ∨ isMap i = true))) ∨
    (∃ q rest, s.run = none ∧ s.reqs = q :: rest ∧ isMap i = true ∧ t = ended s rest s.src s.snk (valueOf i q)) ∨
    (∃ q rest, s.run = none ∧ s.reqs = q :: rest ∧ isMap i = false ∧ checkOf i q = none ∧
      t = runBeats (beatOf i) (beatBound i.fam) (loadOf i q (accept i rest s))) ∨
    (s.run = some i ∧ isMap i = false ∧ t = runBeats (beatOf i) (beatBound i.fam) s) := by
  cases hm : isMap i
  · rw [exec_run hm, runCommand] at h
    split at h
    · rename_i j hj
      by_cases hji : j = i
      · subst hji; simp at h; exact .inr (.inr (.inr ⟨hj, rfl, h.symm⟩))
      · simp [hji] at h; exact .inl ⟨h.symm, .inr ⟨j, hj, .inl hji⟩⟩
    · rename_i hr
      split at h
      · rename_i hq; simp at h; exact .inl ⟨h.symm, .inl ⟨hr, hq⟩⟩
      · rename_i q rest hq
        split at h
        · simp at h
        · rename_i hc; simp at h
          exact .inr (.inr (.inl ⟨q, rest, hr, hq, rfl, hc, h.symm⟩))
  · rw [exec_map hm, mapCommand] at h
    split at h
    · rename_i j hj; simp at h; exact .inl ⟨h.symm, .inr ⟨j, hj, .inr rfl⟩⟩
    · rename_i hr
      split at h
      · rename_i hq; simp at h; exact .inl ⟨h.symm, .inl ⟨hr, hq⟩⟩
      · rename_i q rest hq; simp at h
        exact .inr (.inl ⟨q, rest, hr, hq, rfl, h.symm⟩)

/-- `exec` refuses at issue only, and only for want of a terminator. -/
theorem exec_refused {i : Instr} {s : State} {r : Refusal} (h : exec i s = .refused r) :
    ∃ q rest, s.run = none ∧ s.reqs = q :: rest ∧ (i.op = .r2i ∨ i.op = .wrr) ∧ r = .noTerminator i ∧
      ∀ g, g < i.fam.N → continues (repSlot q.opndRep g) = true := by
  cases hm : isMap i
  · rw [exec_run hm, runCommand] at h
    split at h
    · simp at h
    · rename_i hr
      split at h
      · simp at h
      · rename_i q rest hq
        split at h
        · rename_i r' hc; simp at h; subst h
          have hop : i.op = .r2i ∨ i.op = .wrr := by
            revert hc; unfold checkOf; cases i <;> simp [Instr.op, noCheck]
          have hck : checkOf i = checkTerminator i := by unfold checkOf; rcases hop with h | h <;> simp [h]
          rw [hck, checkTerminator] at hc
          split at hc
          · simp at hc
          · rename_i ht
            simp at hc
            refine ⟨q, rest, hr, hq, hop, hc.symm, fun g hg => ?_⟩
            rw [hasTerminator_iff] at ht
            cases hcg : continues (repSlot q.opndRep g)
            · exact absurd ⟨g, hg, hcg⟩ ht
            · rfl
        · simp at h
  · rw [exec_map hm, mapCommand] at h
    split at h
    · simp at h
    · split at h <;> simp at h

/-- `exec` never faults. -/
theorem exec_not_fault {i : Instr} {s : State} {e : Fault} : exec i s ≠ .fault e := by cases e

/-! ### the ports -/

/-- Everything the source can answer, and its effect. -/
theorem srcRead_cases (src : Source) : ∀ a m, srcRead src = (a, m) →
    m.data = src.data ∧ m.attached = src.attached ∧
    ((a = none ∧ src.pos ≤ m.pos) ∨ (∃ b, a = some (.byte b) ∧ src.data[src.pos]? = some b ∧ m.pos = src.pos + 1) ∨
     (a = some .eoi ∧ m.pos = src.pos) ∨ (∃ e, a = some (.err e) ∧ src.pos ≤ m.pos)) := by
  intro a m h
  simp only [srcRead] at h
  split at h
  · split at h <;> (simp only [Prod.mk.injEq] at h; obtain ⟨rfl, rfl⟩ := h)
    · simp only [srcServe]; split <;> simp [*]
    · simp only [srcServe]; split <;> simp [*]
    · simp
    · simp
    · simp
  · simp only [Prod.mk.injEq] at h; obtain ⟨rfl, rfl⟩ := h; simp

/-- Everything the sink can answer, and its effect. -/
theorem snkWrite_cases (snk : Sink) (b : Byte) : ∀ a m, snkWrite snk b = (a, m) →
    m.attached = snk.attached ∧
    ((a = none ∧ ∃ l, m.out = snk.out ++ l) ∨ (a = some .ok ∧ m.out = snk.out ++ [b]) ∨
     (∃ e, a = some (.err e) ∧ (m.out = snk.out ∨ m.out = snk.out ++ [b]))) := by
  intro a m h
  simp only [snkWrite] at h
  split at h
  · split at h <;> (simp only [Prod.mk.injEq] at h; obtain ⟨rfl, rfl⟩ := h)
    · simp
    · simp
    · simp
    · rename_i taken _ _; cases taken <;> simp
  · simp only [Prod.mk.injEq] at h; obtain ⟨rfl, rfl⟩ := h; simp

/-! ### the commands as runs of beats -/

theorem exec_read {f : Fam} {op : Op} (hp : op.port = .source) {s : State} {q : Request} {rest : List Request}
    (hr : s.run = none) (hq : s.reqs = q :: rest) :
    exec (.of f op) s = .next (runBeats (decodeBeat (Instr.of f op).fam (finishOf (.of f op))) (beatBound (Instr.of f op).fam)
      (waitingRead (.of f op) s rest [] s.src)) := by
  rw [exec_run (by cases f <;> cases op <;> simp [Op.port] at hp <;> rfl), ← accept_eq_waitingRead,
    runCommand_idle hr hq (by cases f <;> cases op <;> simp [Op.port] at hp <;> rfl)]
  cases f <;> cases op <;> simp [Op.port] at hp <;> rfl

theorem exec_resume {i : Instr} (hp : i.op.port = .source) (s : State) (rest : List Request) (pre : List Byte) (src : Source) :
    exec i (waitingRead i s rest pre src) = .next (runBeats (decodeBeat i.fam (finishOf i)) (beatBound i.fam) (waitingRead i s rest pre src)) := by
  rw [exec_run (by cases i <;> simp [Instr.op, Op.port] at hp <;> rfl), runCommand_running rfl]
  cases i <;> simp [Instr.op, Op.port] at hp <;> rfl

theorem exec_enc {f : Fam} {op : Op} (hp : op = .wrs ∨ op = .wru) {s : State} {q : Request} {rest : List Request}
    (hr : s.run = none) (hq : s.reqs = q :: rest) :
    exec (.of f op) s = .next (runBeats (encodeBeat (Instr.of f op).fam) (beatBound (Instr.of f op).fam)
      (waitingEncode (.of f op) s rest (remOf (.of f op) q) 0 s.snk)) := by
  rcases hp with rfl | rfl <;>
  rw [exec_run (by cases f <;> rfl), ← loadRem_accept,
    runCommand_idle hr hq (by cases f <;> rfl)] <;> cases f <;> rfl

theorem exec_enc_resume {i : Instr} (hp : i.op = .wrs ∨ i.op = .wru) (s : State) (rest : List Request) (v : BitVec i.fam.W) (n : Nat) (snk : Sink) :
    exec i (waitingEncode i s rest v n snk) = .next (runBeats (encodeBeat i.fam) (beatBound i.fam) (waitingEncode i s rest v n snk)) := by
  rw [exec_run (by cases i <;> simp [Instr.op] at hp <;> rfl), runCommand_running rfl]
  cases i <;> simp [Instr.op] at hp <;> rfl

theorem exec_wrr {f : Fam} {s : State} {q : Request} {rest : List Request}
    (hr : s.run = none) (hq : s.reqs = q :: rest) (ht : ∃ g, g < f.N ∧ continues (repSlot q.opndRep g) = false) :
    exec (.of f .wrr) s = .next (runBeats writeBeat (beatBound (Instr.of f .wrr).fam)
      (waitingWrite (.of f .wrr) s rest (repOperand f q) 0 s.snk)) := by
  have hc := checkTerminator_none (i := .of f .wrr) (q := q) (by simpa using ht)
  rw [exec_run (by cases f <;> rfl), ← loadBuf_accept,
    runCommand_idle hr hq (by cases f <;> exact hc)]
  cases f <;> rfl

theorem exec_wrr_resume {f : Fam} {s : State} {buf rest n snk} :
    exec (.of f .wrr) (waitingWrite (.of f .wrr) s rest buf n snk) = .next (runBeats writeBeat (beatBound (Instr.of f .wrr).fam)
      (waitingWrite (.of f .wrr) s rest buf n snk)) := by
  rw [exec_run (by cases f <;> rfl), runCommand_running rfl]
  cases f <;> rfl

/-! ### what a beat and a run of beats can change -/

/-- What a beat can do to the ports: one answer of the command's own port, or nothing. -/
def portMove (i : Instr) (s : State) (src : Source) (snk : Sink) : Prop :=
  (src = s.src ∨ (i.op.port = .source ∧ ∃ a, srcRead s.src = (a, src))) ∧
  (snk = s.snk ∨ (i.op.port = .sink ∧ ∃ a b, snkWrite s.snk b = (a, snk)))

/-- The responses a command can give. -/
def allowed (i : Instr) (r : Response) : Prop :=
  match r with
  | .okNone => i.op.result = .none
  | .okInt v => i.op.result = .int ∧ ∃ x : BitVec i.fam.W, v = intResult i.fam x
  | .okRep p => i.op.result = .rep ∧ ∃ b, p = repResult i.fam b
  | .fail .unexpectedEndOfInput => i.op.port = .source
  | .fail .encodingTooLong => i.op.port = .source
  | .fail (.ioError _) => i.op.port = .source ∨ i.op.port = .sink

/-- Everything a beat can do. -/
def beatOk (i : Instr) (s : State) : Beat → Prop
  | .go s' => ∃ acc rem gidx buf src snk, s' = { s with acc := acc, rem := rem, gidx := gidx, buf := buf, src := src, snk := snk } ∧ portMove i s src snk
  | .wait s' => ∃ src snk, s' = { s with src := src, snk := snk } ∧ portMove i s src snk
  | .done s' => ∃ src snk r, s' = ended s s.reqs src snk r ∧ portMove i s src snk ∧ allowed i r

section
variable {i : Instr} {s : State}
theorem decodeBeat_ok {fin} (hp : i.op.port = .source) (hf : ∀ acc buf, allowed i (fin acc buf)) :
    beatOk i s (decodeBeat i.fam fin s) := by
  have pm : ∀ a src, srcRead s.src = (a, src) → portMove i s src s.snk := fun a src h => ⟨.inr ⟨hp, a, h⟩, .inl rfl⟩
  unfold decodeBeat
  split
  · exact ⟨_, s.snk, rfl, pm _ _ (by assumption)⟩
  · exact ⟨_, s.snk, _, rfl, pm _ _ (by assumption), hp⟩
  · exact ⟨_, s.snk, _, rfl, pm _ _ (by assumption), .inl hp⟩
  · split
    · exact ⟨_, s.snk, _, rfl, pm _ _ (by assumption), hp⟩
    · dsimp only
      split
      · exact ⟨_, s.rem, _, _, _, s.snk, rfl, pm _ _ (by assumption)⟩
      · exact ⟨_, s.snk, _, rfl, pm _ _ (by assumption), hf _ _⟩
theorem encodeBeat_ok (hp : i.op.port = .sink) (hr : i.op.result = .none) : beatOk i s (encodeBeat i.fam s) := by
  have pm : ∀ a b snk, snkWrite s.snk b = (a, snk) → portMove i s s.src snk := fun a b snk h => ⟨.inl rfl, .inr ⟨hp, a, b, h⟩⟩
  unfold encodeBeat
  dsimp only
  split
  · exact ⟨s.src, _, rfl, pm _ _ _ (by assumption)⟩
  · exact ⟨s.src, _, _, rfl, pm _ _ _ (by assumption), .inr hp⟩
  · split
    · exact ⟨s.src, _, _, rfl, pm _ _ _ (by assumption), hr⟩
    · exact ⟨s.acc, _, _, s.buf, s.src, _, rfl, pm _ _ _ (by assumption)⟩
theorem writeBeat_ok (hp : i.op.port = .sink) (hr : i.op.result = .none) : beatOk i s (writeBeat s) := by
  have pm : ∀ a b snk, snkWrite s.snk b = (a, snk) → portMove i s s.src snk := fun a b snk h => ⟨.inl rfl, .inr ⟨hp, a, b, h⟩⟩
  unfold writeBeat
  dsimp only
  split
  · exact ⟨s.src, _, rfl, pm _ _ _ (by assumption)⟩
  · exact ⟨s.src, _, _, rfl, pm _ _ _ (by assumption), .inr hp⟩
  · split
    · exact ⟨s.acc, s.rem, _, s.buf, s.src, _, rfl, pm _ _ _ (by assumption)⟩
    · exact ⟨s.src, _, _, rfl, pm _ _ _ (by assumption), hr⟩
theorem foldStep_ok (hr : i.op.result = .int) : beatOk i s (foldStep i.fam s) := by
  unfold foldStep
  dsimp only
  split
  · exact ⟨_, s.rem, _, s.buf, s.src, s.snk, rfl, .inl rfl, .inl rfl⟩
  · exact ⟨s.src, s.snk, _, rfl, ⟨.inl rfl, .inl rfl⟩, hr, _, rfl⟩
theorem fillStep_ok (hr : i.op.result = .rep) : beatOk i s (fillStep i.fam s) := by
  unfold fillStep
  dsimp only
  split
  · exact ⟨s.src, s.snk, _, rfl, ⟨.inl rfl, .inl rfl⟩, hr, _, rfl⟩
  · exact ⟨s.acc, _, _, _, s.src, s.snk, rfl, .inl rfl, .inl rfl⟩
end
theorem beatOf_ok (i : Instr) (hm : isMap i = false) (s : State) : beatOk i s (beatOf i s) := by
  cases i
  case zze32 | zzd32 | zze64 | zzd64 => simp [isMap, Instr.op] at hm
  case rds32 | rdu32 | rds64 | rdu64 => exact decodeBeat_ok rfl fun acc buf => ⟨rfl, _, rfl⟩
  case rdr32 | rdr64 => exact decodeBeat_ok rfl fun acc buf => ⟨rfl, _, rfl⟩
  case wrs32 | wru32 | wrs64 | wru64 => exact encodeBeat_ok rfl rfl
  case wrr32 | wrr64 => exact writeBeat_ok rfl rfl
  case r2i32 | r2i64 => exact foldStep_ok rfl
  case i2r32 | i2r64 => exact fillStep_ok rfl

/-- What a run of beats can do to the fields outside the working registers. -/
def reach (i : Instr) (s t : State) : Prop :=
  (i.op.port ≠ .source → t.src = s.src) ∧ (i.op.port ≠ .sink → t.snk = s.snk) ∧
  t.src.data = s.src.data ∧ s.src.pos ≤ t.src.pos ∧ (∃ l, t.snk.out = s.snk.out ++ l) ∧ t.reqs = s.reqs ∧ t.resetIn = s.resetIn
theorem reach_refl (i s) : reach i s s := ⟨fun _ => rfl, fun _ => rfl, rfl, le_rfl, ⟨[], by simp⟩, rfl, rfl⟩
theorem reach_trans {i s t u} (h : reach i s t) (h' : reach i t u) : reach i s u := by
  obtain ⟨a1,a2,a3,a4,⟨l,a5⟩,a6,a7⟩ := h
  obtain ⟨b1,b2,b3,b4,⟨l',b5⟩,b6,b7⟩ := h'
  exact ⟨fun h => (b1 h).trans (a1 h), fun h => (b2 h).trans (a2 h), b3.trans a3, a4.trans b4, ⟨l ++ l', by rw [b5, a5]; simp⟩, b6.trans a6, b7.trans a7⟩
theorem portMove_reach {i s t} (h : portMove i s t.src t.snk) (h1 : t.reqs = s.reqs) (h2 : t.resetIn = s.resetIn) : reach i s t := by
  obtain ⟨hs, hk⟩ := h
  refine ⟨fun hp => ?_, fun hp => ?_, ?_, ?_, ?_, h1, h2⟩
  · rcases hs with h | ⟨h, -⟩
    · exact h
    · exact absurd h hp
  · rcases hk with h | ⟨h, -⟩
    · exact h
    · exact absurd h hp
  · rcases hs with h | ⟨-, a, h⟩
    · rw [h]
    · exact (srcRead_cases _ _ _ h).1
  · rcases hs with h | ⟨-, a, h⟩
    · rw [h]
    · obtain ⟨-, -, h⟩ := srcRead_cases _ _ _ h
      rcases h with h | ⟨b, h⟩ | h | ⟨e, h⟩ <;> omega
  · rcases hk with h | ⟨-, a, b, h⟩
    · exact ⟨[], by rw [h]; simp⟩
    · obtain ⟨-, h⟩ := snkWrite_cases _ _ _ _ h
      rcases h with h | h | ⟨e, -, h | h⟩
      · exact h.2
      · exact ⟨_, h.2⟩
      · exact ⟨[], by simpa using h⟩
      · exact ⟨_, h⟩
/-- Everything a run of beats can do. -/
theorem runBeats_spec (i : Instr) (hm : isMap i = false) (n : Nat) (s : State) (hr : s.run = some i) :
    reach i s (runBeats (beatOf i) n s) ∧
    ((runBeats (beatOf i) n s).run = some i ∧ (runBeats (beatOf i) n s).resps = s.resps ∨
     ∃ src snk r, runBeats (beatOf i) n s = ended s s.reqs src snk r ∧ allowed i r) := by
  induction n generalizing s with
  | zero => exact ⟨reach_refl i s, .inl ⟨hr, rfl⟩⟩
  | succ n ih =>
    have := beatOf_ok i hm s
    cases h : beatOf i s with
    | go s' =>
      rw [h] at this
      obtain ⟨acc, rem, gidx, buf, src, snk, rfl, hpm⟩ := this
      rw [runBeats_go _ h]
      obtain ⟨h1, h2⟩ := ih { s with acc := acc, rem := rem, gidx := gidx, buf := buf, src := src, snk := snk } hr
      refine ⟨reach_trans (portMove_reach (t := { s with acc := acc, rem := rem, gidx := gidx, buf := buf, src := src, snk := snk }) hpm rfl rfl) h1, ?_⟩
      rcases h2 with h2 | ⟨a, b, r, h2, h3⟩
      · exact .inl h2
      · exact .inr ⟨a, b, r, h2, h3⟩
    | wait s' =>
      rw [h] at this
      obtain ⟨src, snk, rfl, hpm⟩ := this
      rw [runBeats_wait _ h]
      exact ⟨portMove_reach (t := { s with src := src, snk := snk }) hpm rfl rfl, .inl ⟨hr, rfl⟩⟩
    | done s' =>
      rw [h] at this
      obtain ⟨src, snk, r, rfl, hpm, ha⟩ := this
      rw [runBeats_done _ h]
      exact ⟨portMove_reach (t := ended s s.reqs src snk r) hpm rfl rfl, .inr ⟨_, _, _, rfl, ha⟩⟩

theorem allowed_map (i : Instr) (h : isMap i = true) (q : Request) : allowed i (valueOf i q) := by
  cases i <;> simp [isMap, Instr.op] at h <;> exact ⟨rfl, _, rfl⟩
/-- Loading writes `REM` and `BUF` only. -/
theorem loadOf_frame (i : Instr) (q : Request) (s : State) : ∃ rem buf, loadOf i q s = { s with rem := rem, buf := buf } := by
  cases i
  case r2i32 | r2i64 | wrr32 | wrr64 => exact ⟨s.rem, _, rfl⟩
  case wrs32 | wrs64 | wru32 | wru64 | i2r32 | i2r64 => exact ⟨_, s.buf, rfl⟩
  all_goals exact ⟨s.rem, s.buf, rfl⟩

/-- Everything `exec` can do, without the values: nothing happens, or the command was accepted or went on, and it has ended
with one of its responses or waits. -/
theorem exec_spec {i : Instr} {s t : State} (h : exec i s = .next t) :
    (t = s ∧ (s.run = none → s.reqs = []) ∧ (s.run ≠ some i ∨ isMap i = true)) ∨
    (((s.run = none ∧ ∃ q rest, s.reqs = q :: rest ∧ t.reqs = rest) ∨ (s.run = some i ∧ t.reqs = s.reqs)) ∧
     reach i {s with reqs := t.reqs} t ∧
     (t.run = some i ∧ t.resps = s.resps ∨ ∃ r, t = ended s t.reqs t.src t.snk r ∧ allowed i r)) := by
  rcases exec_cases h with ⟨rfl, h⟩ | ⟨q, rest, hr, hq, hm, rfl⟩ | ⟨q, rest, hr, hq, hm, -, rfl⟩ | ⟨hr, hm, rfl⟩
  · refine .inl ⟨rfl, fun hr => ?_, ?_⟩
    · rcases h with ⟨-, h⟩ | ⟨j, hj, -⟩
      · exact h
      · simp [hr] at hj
    · rcases h with ⟨hr, -⟩ | ⟨j, hj, h | h⟩
      · simp [hr]
      · left; simp [hj, h]
      · exact .inr h
  · exact .inr ⟨.inl ⟨hr, q, rest, hq, rfl⟩, reach_refl _ _, .inr ⟨_, rfl, allowed_map _ hm q⟩⟩
  · obtain ⟨rem, buf, hl⟩ := loadOf_frame i q (accept i rest s)
    rw [hl]
    obtain ⟨h1, h2⟩ := runBeats_spec i hm (beatBound i.fam) { accept i rest s with rem := rem, buf := buf } rfl
    obtain ⟨c1, c2, c3, c4, c5, c6, c7⟩ := h1
    refine .inr ⟨.inl ⟨hr, q, rest, hq, c6⟩, ⟨c1, c2, c3, c4, c5, rfl, c7⟩, ?_⟩
    rcases h2 with h2 | ⟨src, snk, r, h2, h3⟩
    · exact .inl h2
    · right; rw [h2]; exact ⟨r, rfl, h3⟩
  · obtain ⟨h1, h2⟩ := runBeats_spec i hm (beatBound i.fam) s hr
    obtain ⟨c1, c2, c3, c4, c5, c6, c7⟩ := h1
    refine .inr ⟨.inr ⟨hr, c6⟩, ⟨c1, c2, c3, c4, c5, rfl, c7⟩, ?_⟩
    rcases h2 with h2 | ⟨src, snk, r, h2, h3⟩
    · exact .inl h2
    · right; rw [h2]; exact ⟨r, rfl, h3⟩

/-! ### what a step can do -/

/-- With the reset input low, a step is a step of the command sequencer. -/
theorem step_low {s : State} (h : s.resetIn.head? ≠ some true) : step s = stepCommand { s with resetIn := s.resetIn.tail } := by
  unfold step
  split
  · simp_all
  · rename_i h; simp [h]
  · rename_i h; simp [h]
    congr; cases s; simp_all

/-- Everything a step can do when it answers a next state. -/
theorem step_cases {s t : State} (h : step s = .next t) :
    (∃ rest, s.resetIn = true :: rest ∧ t = resetBlock { s with resetIn := rest }) ∨
    (∃ i, (s.run = some i ∨ s.run = none ∧ ∃ q rest, s.reqs = q :: rest ∧ decode q.cmd = .instr i) ∧ exec i { s with resetIn := s.resetIn.tail } = .next t) ∨
    (s.run = none ∧ s.reqs = [] ∧ t = { s with resetIn := s.resetIn.tail }) := by
  by_cases hr : s.resetIn.head? = some true
  · left
    cases hl : s.resetIn with
    | nil => simp [hl] at hr
    | cons b rest =>
      simp [hl] at hr; subst hr
      simp [step, hl] at h
      exact ⟨rest, rfl, h.symm⟩
  · rw [step_low hr, stepCommand] at h
    right
    split at h
    · rename_i i hi; exact .inl ⟨i, .inl hi, h⟩
    · rename_i hi
      split at h
      · rename_i hq; simp at h; exact .inr ⟨hi, hq, h.symm⟩
      · rename_i q rest hq
        split at h
        · rename_i i hd; exact .inl ⟨i, .inr ⟨hi, q, rest, hq, hd⟩, h⟩
        · simp at h

end Sys2Proof.Machine
end

