-- ==== Sys2Proof/Laws/PerInstr.lean ====
section
/-! SUPPORT. Statements made once per command. -/

namespace Sys2Proof.Laws.CommandWord

open Sys2Proof

/-- A command is well formed, its word has `cmd[7:5] = 000`, and decoding its word gives it back (30_encoding.md R91, R92). -/
def Statement (i : Instr) : Prop :=
  i.wf = true ∧ zeroField (encode i) = 0 ∧ famField (encode i) = i.fam ∧ opOfCode (opField (encode i)) = some i.op ∧
    decode (encode i) = .instr i

theorem zze32 : Statement .zze32 := ⟨rfl, by decide, by decide, by decide, by decide⟩

theorem zzd32 : Statement .zzd32 := ⟨rfl, by decide, by decide, by decide, by decide⟩

theorem rds32 : Statement .rds32 := ⟨rfl, by decide, by decide, by decide, by decide⟩

theorem rdr32 : Statement .rdr32 := ⟨rfl, by decide, by decide, by decide, by decide⟩

theorem r2i32 : Statement .r2i32 := ⟨rfl, by decide, by decide, by decide, by decide⟩

theorem wrs32 : Statement .wrs32 := ⟨rfl, by decide, by decide, by decide, by decide⟩

theorem i2r32 : Statement .i2r32 := ⟨rfl, by decide, by decide, by decide, by decide⟩

theorem wrr32 : Statement .wrr32 := ⟨rfl, by decide, by decide, by decide, by decide⟩

theorem rdu32 : Statement .rdu32 := ⟨rfl, by decide, by decide, by decide, by decide⟩

theorem wru32 : Statement .wru32 := ⟨rfl, by decide, by decide, by decide, by decide⟩

theorem zze64 : Statement .zze64 := ⟨rfl, by decide, by decide, by decide, by decide⟩

theorem zzd64 : Statement .zzd64 := ⟨rfl, by decide, by decide, by decide, by decide⟩

theorem rds64 : Statement .rds64 := ⟨rfl, by decide, by decide, by decide, by decide⟩

theorem rdr64 : Statement .rdr64 := ⟨rfl, by decide, by decide, by decide, by decide⟩

theorem r2i64 : Statement .r2i64 := ⟨rfl, by decide, by decide, by decide, by decide⟩

theorem wrs64 : Statement .wrs64 := ⟨rfl, by decide, by decide, by decide, by decide⟩

theorem i2r64 : Statement .i2r64 := ⟨rfl, by decide, by decide, by decide, by decide⟩

theorem wrr64 : Statement .wrr64 := ⟨rfl, by decide, by decide, by decide, by decide⟩

theorem rdu64 : Statement .rdu64 := ⟨rfl, by decide, by decide, by decide, by decide⟩

theorem wru64 : Statement .wru64 := ⟨rfl, by decide, by decide, by decide, by decide⟩

end Sys2Proof.Laws.CommandWord
end

