-- ==== Sys2Proof/Tests/Slice0.lean ====
section
/-! SUPPORT. Tests.  Expected values are those of spec/95_test_vectors.md or of the rule named beside the test. -/

namespace Sys2Proof.Tests

open Sys2Proof Sys2Proof.Machine

/-! ### Helpers -/

/-- A presented command. -/
def req (cmd : Byte) (int : Word := 0) (rep : RepField := 0) : Request := { cmd := cmd, opndInt := int, opndRep := rep }

/-- The reference source on a byte list (20_memory.md R70). -/
def srcOf (data : List Byte) (script : List SourceMove := []) : Source :=
  { data := data, pos := 0, attached := true, script := script }

/-- The reference sink, empty (R70). -/
def snkOf (script : List SinkMove := []) : Sink := { out := [], attached := true, script := script }

/-- An idle block with one command presented. -/
def idle (q : Request) (src : Source := srcOf []) (snk : Sink := snkOf) : State :=
  { State.reset with reqs := [q], src := src, snk := snk }

/-- What an observer sees of a step (00_scope.md R8): the responses, the bytes consumed, the bytes written. -/
def seen (o : Host.Outcome State Fault Refusal) : Option (List Response × Nat × List Byte) :=
  match o with
  | .next t => some (t.resps, t.src.pos, t.snk.out)
  | .fault _ => none
  | .refused _ => none

/-- The refusal of a step. -/
def refusal (o : Host.Outcome State Fault Refusal) : Option Refusal :=
  match o with
  | .next _ => none
  | .fault _ => none
  | .refused r => some r

/-- The registers of the block after a step. -/
def regs (o : Host.Outcome State Fault Refusal) : Option (Option Instr × Word × Word × Nat × List Byte) :=
  match o with
  | .next t => some (t.run, t.acc, t.rem, t.gidx.toNat, t.buf.toList)
  | .fault _ => none
  | .refused _ => none

/-- A check on the next state of a step, as a Bool. -/
def isNext (o : Host.Outcome State Fault Refusal) (p : State → Bool) : Bool :=
  match o with
  | .next t => p t
  | .fault _ => false
  | .refused _ => false

/-- A step has a next state with a property when the check says so. -/
theorem exists_next {o : Host.Outcome State Fault Refusal} {p : State → Prop} [DecidablePred p]
    (h : isNext o (fun t => decide (p t)) = true) : ∃ t, o = .next t ∧ p t := by
  cases o with
  | next t => exact ⟨t, rfl, of_decide_eq_true h⟩
  | fault f => cases f
  | refused r => cases h

/-- A step has a next state when the check says so. -/
theorem exists_next' {o : Host.Outcome State Fault Refusal} (h : isNext o (fun _ => true) = true) : ∃ t, o = .next t := by
  cases o with
  | next t => exact ⟨t, rfl⟩
  | fault f => cases f
  | refused r => cases h

/-! ### Decoding: words written out from `cmd = {000, fam, op}` (30_encoding.md R91, R92) -/

theorem test_decode_zigzag :
    decode 0b00000000#8 = .instr .zze32 ∧ decode 0b00000001#8 = .instr .zzd32 ∧
    decode 0b00010000#8 = .instr .zze64 ∧ decode 0b00010001#8 = .instr .zzd64 := by decide

theorem test_decode_decoder :
    decode 0b00000010#8 = .instr .rds32 ∧ decode 0b00000011#8 = .instr .rdr32 ∧ decode 0b00000100#8 = .instr .r2i32 ∧
    decode 0b00010010#8 = .instr .rds64 ∧ decode 0b00010011#8 = .instr .rdr64 ∧
    decode 0b00010100#8 = .instr .r2i64 := by decide

theorem test_decode_encoder :
    decode 0b00000101#8 = .instr .wrs32 ∧ decode 0b00000110#8 = .instr .i2r32 ∧ decode 0b00000111#8 = .instr .wrr32 ∧
    decode 0b00010101#8 = .instr .wrs64 ∧ decode 0b00010110#8 = .instr .i2r64 ∧
    decode 0b00010111#8 = .instr .wrr64 := by decide

theorem test_decode_fused :
    decode 0b00001000#8 = .instr .rdu32 ∧ decode 0b00001001#8 = .instr .wru32 ∧
    decode 0b00011000#8 = .instr .rdu64 ∧ decode 0b00011001#8 = .instr .wru64 := by decide

/-- Table 2.7: the reserved words. -/
theorem test_decode_reserved :
    decode 0x0A#8 = .reject .reservedOp ∧ decode 0x0F#8 = .reject .reservedOp ∧ decode 0x1A#8 = .reject .reservedOp ∧
    decode 0x1F#8 = .reject .reservedOp ∧ decode 0x20#8 = .reject .zeroField ∧ decode 0x42#8 = .reject .zeroField ∧
    decode 0x80#8 = .reject .zeroField ∧ decode 0xFF#8 = .reject .zeroField := by decide

theorem test_table_word :
    decodeTableWord 8 0x12 = some .rds64 ∧ decodeTableWord 8 0x0A = none ∧ decodeTableWord 8 0x20 = none := by decide

/-! ### Well-formedness smoke -/

/-- 10_state.md R22: no terminator; a byte after the terminator; a byte in a slot the family does not have. -/
theorem test_rep_ill_formed :
    repWF .f32 0x8080808080#80 = false ∧ repWF .f32 0xFF05#80 = false ∧ repWF .f32 0x010000000000#80 = false ∧
    repWF .f64 0xFFFFFFFFFFFFFFFFFFFF#80 = false := by decide

theorem test_rep_well_formed :
    repWF .f32 0x02AC#80 = true ∧ repWF .f32 0x0FFFFFFFFF#80 = true ∧ repWF .f32 0x0080#80 = true ∧
    repWF .f64 0x01FFFFFFFFFFFFFFFFFF#80 = true := by decide

/-- R26: the precondition of `R2I` and `WRR` refuses an operand with no terminator in its own slots, and no other. -/
theorem test_precondition :
    hasTerminator .f32 0x008080808080#80 = false ∧ hasTerminator .f64 0x008080808080#80 = true ∧
    hasTerminator .f32 0xFFFFFFFF05#80 = true := by decide

theorem test_instr_wf : Instr.wf .zze32 = true ∧ Instr.wf .wru64 = true := by decide

/-! ### One step per command (tables 2.1 to 2.6) -/

/-- Table 2.1, "Family-32 field detail". -/
theorem test_zze32 :
    seen (step (idle (req 0x00#8 0xDEADBEEFFFFFFFFF#64))) = some ([.okInt 0x0000000000000001#64], 0, []) := by decide

theorem test_zze64 : seen (step (idle (req 0x10#8 0x8000000000000000#64))) =
    some ([.okInt 0xFFFFFFFFFFFFFFFF#64], 0, []) := by decide

theorem test_zzd32 : seen (step (idle (req 0x01#8 0x00000000FFFFFFFF#64))) =
    some ([.okInt 0x0000000080000000#64], 0, []) := by decide

theorem test_zzd64 : seen (step (idle (req 0x11#8 0x00000000FFFFFFFF#64))) =
    some ([.okInt 0xFFFFFFFF80000000#64], 0, []) := by decide

theorem test_rds32 : seen (step (idle (req 0x02#8) (srcOf [0xAC#8, 0x02#8, 0x55#8]))) =
    some ([.okInt 300#64], 2, []) := by decide

/-- 90_conflicts.md C2, C3: the sixth byte fails whatever its bit 7. -/
theorem test_rds32_too_long :
    seen (step (idle (req 0x02#8) (srcOf [0x80#8, 0x80#8, 0x80#8, 0x80#8, 0x80#8, 0x00#8, 0x2A#8]))) =
    some ([.fail .encodingTooLong], 6, []) := by decide

theorem test_rds64 : seen (step (idle (req 0x12#8) (srcOf [0xFF#8, 0xFF#8, 0xFF#8, 0xFF#8, 0x0F#8]))) =
    some ([.okInt 4294967295#64], 5, []) := by decide

/-- Spare bits of byte 10 are dropped. -/
theorem test_rds64_spare : seen (step (idle (req 0x12#8)
    (srcOf [0x80#8, 0x80#8, 0x80#8, 0x80#8, 0x80#8, 0x80#8, 0x80#8, 0x80#8, 0x80#8, 0x03#8]))) =
    some ([.okInt 0x8000000000000000#64], 10, []) := by decide

theorem test_rdr32 : seen (step (idle (req 0x03#8) (srcOf [0xFF#8, 0xFF#8, 0xFF#8, 0xFF#8, 0x7F#8]))) =
    some ([.okRep 0x7FFFFFFFFF#80], 5, []) := by decide

theorem test_rdr64 : seen (step (idle (req 0x13#8) (srcOf [0x80#8, 0x80#8, 0x00#8, 0xAC#8]))) =
    some ([.okRep 0x008080#80], 3, []) := by decide

theorem test_r2i32 : seen (step (idle (req 0x04#8 0 0xFFFFFFFF05#80))) = some ([.okInt 5#64], 0, []) := by decide

theorem test_r2i32_refused :
    refusal (step (idle (req 0x04#8 0 0x008080808080#80))) = some (.noTerminator .r2i32) := by decide

theorem test_r2i64 : seen (step (idle (req 0x14#8 0 0x01FFFFFFFFFFFFFFFFFF#80))) =
    some ([.okInt 0xFFFFFFFFFFFFFFFF#64], 0, []) := by decide

theorem test_wrs32 : seen (step (idle (req 0x05#8 0xFFFFFFFFFFFFFED4#64))) =
    some ([.okNone], 0, [0xD4#8, 0xFD#8, 0xFF#8, 0xFF#8, 0x0F#8]) := by decide

/-- Table "Sink failures", `WRS.32 -1`, third byte. -/
theorem test_wrs32_sink_error :
    seen (step (idle (req 0x05#8 0xFFFFFFFF#64) (srcOf []) (snkOf [.accept, .accept, .fail ⟨7⟩ false]))) =
    some ([.fail (.ioError ⟨7⟩)], 0, [0xFF#8, 0xFF#8]) := by decide

theorem test_wrs64 : seen (step (idle (req 0x15#8 0xFFFFFFFF80000000#64))) =
    some ([.okNone], 0, [0x80#8, 0x80#8, 0x80#8, 0x80#8, 0xF8#8, 0xFF#8, 0xFF#8, 0xFF#8, 0xFF#8, 0x01#8]) := by decide

theorem test_i2r32 : seen (step (idle (req 0x06#8 25565#64))) = some ([.okRep 0x01C7DD#80], 0, []) := by decide

theorem test_i2r64 : seen (step (idle (req 0x16#8 0xFFFFFFFFFFFFFED4#64))) =
    some ([.okRep 0x01FFFFFFFFFFFFFFFDD4#80], 0, []) := by decide

theorem test_wrr32 : seen (step (idle (req 0x07#8 0 0x7880808080#80))) =
    some ([.okNone], 0, [0x80#8, 0x80#8, 0x80#8, 0x80#8, 0x78#8]) := by decide

theorem test_wrr64 : seen (step (idle (req 0x17#8 0 0x008080#80))) =
    some ([.okNone], 0, [0x80#8, 0x80#8, 0x00#8]) := by decide

theorem test_wrr64_refused :
    refusal (step (idle (req 0x17#8 0 0xFFFFFFFFFFFFFFFFFFFF#80))) = some (.noTerminator .wrr64) := by decide

theorem test_rdu32 : seen (step (idle (req 0x08#8) (srcOf [0x91#8, 0x9C#8, 0xFF#8, 0xFF#8, 0x0F#8]))) =
    some ([.okInt 25565#64], 5, []) := by decide

theorem test_rdu64 : seen (step (idle (req 0x18#8) (srcOf [0xFF#8, 0xFF#8, 0xFF#8, 0xFF#8, 0x0F#8]))) =
    some ([.okInt 8589934590#64], 5, []) := by decide

theorem test_wru32 : seen (step (idle (req 0x09#8 0x7FFFFFFF#64))) =
    some ([.okNone], 0, [0x80#8, 0x80#8, 0x80#8, 0x80#8, 0x0C#8]) := by decide

theorem test_wru64 : seen (step (idle (req 0x19#8 0x100000000#64))) =
    some ([.okNone], 0, [0x80#8, 0x80#8, 0x80#8, 0x80#8, 0x08#8]) := by decide

/-! ### Waiting, reset, refusing -/

/-- The register trace of `RDS.32` on `AC 02 55`, stopped after the first beat (table 2.4). -/
theorem test_wait_registers :
    regs (step (idle (req 0x02#8) (srcOf [0xAC#8, 0x02#8, 0x55#8] [.serve, .wait 0]))) =
    some (some .rds32, 0x2C#64, 0, 1, [0xAC#8, 0, 0, 0, 0, 0, 0, 0, 0, 0]) := by decide

/-- The register trace of `WRS.32 300` after the first beat (table 2.3). -/
theorem test_wait_registers_write :
    regs (step (idle (req 0x05#8 300#64) (srcOf []) (snkOf [.accept, .wait []]))) =
    some (some .wrs32, 0, 2#64, 1, [0, 0, 0, 0, 0, 0, 0, 0, 0, 0]) := by decide

/-- 70_reset_and_hazards.md R202: reset of a running command, no response. -/
theorem test_reset_aborts :
    seen (step { idle (req 0x00#8) with run := some .rds32, acc := 0x2C#64, gidx := 1#4, resetIn := [true] }) =
      some ([], 0, []) ∧
    regs (step { idle (req 0x00#8) with run := some .rds32, acc := 0x2C#64, gidx := 1#4, resetIn := [true] }) =
      some (none, 0, 0, 0, [0, 0, 0, 0, 0, 0, 0, 0, 0, 0]) := by decide

theorem test_reserved_refused :
    refusal (step (idle (req 0x0A#8))) = some (.reservedCommand 0x0A#8 .reservedOp) ∧
    refusal (step (idle (req 0x42#8))) = some (.reservedCommand 0x42#8 .zeroField) := by decide

/-- The placed word runs as the first command after reset. -/
theorem test_fetch_word :
    seen (step (State.reset.withFetchWord 8 0x16)) = some ([.okRep 0], 0, []) ∧
    seen (step (State.reset.withFetchWord 8 0x02)) = some ([.fail .unexpectedEndOfInput], 0, []) := by decide

/-! ### Witnesses: for each statement with hypotheses, states and operands that meet them together, clause by clause -/

/-- `n` bytes `0x80`, all with bit 7 set. -/
def cont (n : Nat) : List Byte := List.replicate n 0x80#8

/-- The source after `n` bytes of `data`. -/
def srcAt (data : List Byte) (n : Nat) (script : List SourceMove := []) : Source :=
  { data := data, pos := n, attached := true, script := script }

/-- A decoder command that waits after `n` bytes `0x80`. -/
def waitingR (i : Instr) (n : Nat) (src : Source := srcOf []) : State :=
  waitingRead i State.reset [] (cont n) src

/-- `WRS.32 -1`, waiting after `n` bytes. -/
def waitingW (n : Nat) (snk : Sink := snkOf) : State := waitingEncode .wrs32 State.reset [] 0xFFFFFFFF#32 n snk

/-- `WRR.32 [80 80 80 80 08]`, waiting after `n` bytes. -/
def waitingV (n : Nat) (snk : Sink := snkOf) : State :=
  waitingWrite .wrr32 State.reset [] (repOperand .f32 (req 0x07#8 0 0x0880808080#80)) n snk

theorem witness_ReservedWordsRefused :
    ∀ w : Byte, w = 0x0A#8 ∨ w = 0x1F#8 ∨ w = 0x20#8 ∨ w = 0xFF#8 →
      (idle (req w)).resetIn.head? ≠ some true ∧ (idle (req w)).run = none ∧ (idle (req w)).reqs = [req w] ∧
      (w.extractLsb' 5 3 ≠ 0 ∨ 0xA ≤ (w.extractLsb' 0 4).toNat) := by
  rintro w (rfl | rfl | rfl | rfl) <;> decide

theorem witness_StepRunsTheCommand :
    (∀ b, b = [] ∨ b = [false] → ({ idle (req 0x19#8) with resetIn := b }.resetIn.head? ≠ some true)) ∧
    (idle (req 0x19#8)).run = none ∧ (idle (req 0x19#8)).reqs = [req 0x19#8] ∧ decode (req 0x19#8).cmd = .instr .wru64 ∧
    (waitingR .rds32 5).run = some .rds32 ∧ (waitingR .rds32 5).resetIn.head? ≠ some true ∧
    State.reset.run = none ∧ State.reset.reqs = [] ∧ State.reset.resetIn.head? ≠ some true := by
  refine ⟨?_, by decide⟩
  rintro b (rfl | rfl) <;> decide

theorem witness_FetchWordIsRunNext :
    decode (BitVec.ofNat 8 (0x19 % 2 ^ 8)) = .instr .wru64 ∧ decode (BitVec.ofNat 8 (0x100 % 2 ^ 8)) = .instr .zze32 := by
  decide

theorem witness_ResetAbortsWithoutResponse :
    { waitingR .rds32 5 with resetIn := [true] }.resetIn = [true] ∧ (waitingR .rds32 5).run = some .rds32 := by decide

theorem witness_ResetValues : { waitingW 4 with resetIn := [true, false] }.resetIn = true :: [false] := by decide

theorem witness_RepresentationFieldCarriesSlots : 4 < Fam.f32.N ∧ ¬ 5 < Fam.f32.N ∧ 9 < 10 ∧ 9 < Fam.f64.N := by decide

theorem witness_ResetWhileIdleChangesNothing :
    RegInv { State.reset with resetIn := [true, false] } ∧ { State.reset with resetIn := [true, false] }.run = none ∧
    { State.reset with resetIn := [true, false] }.resetIn = true :: [false] := ⟨⟨rfl, rfl, rfl, rfl⟩, rfl, rfl⟩

/-- States of every shape the invariant allows: idle, a decoder command after `0` and after `N` bytes, an encoder command and
`WRR` before their last byte. -/
theorem witness_RegInv :
    RegInv State.reset ∧ RegInv (idle (req 0x02#8)) ∧ RegInv (waitingR .rds32 0) ∧ RegInv (waitingR .rdu64 10) ∧
    RegInv (waitingW 4) ∧ RegInv (waitingV 4) := by
  refine ⟨⟨rfl, rfl, rfl, rfl⟩, ⟨rfl, rfl, rfl, rfl⟩, ⟨by decide, rfl, fun g h => absurd h (by simp [waitingR, waitingRead, cont]), by decide, by decide⟩, ⟨by decide, rfl, ?_, by decide, by decide⟩,
    ⟨by decide, rfl, rfl, by decide⟩, ⟨rfl, rfl, ⟨4, by decide⟩, fun g h => ?_⟩⟩
  · change ∀ g, g < 10 → _
    decide
  · change slotGet (repOperand .f32 _) g = 0
    have h : 5 ≤ g := h
    rw [slotGet_repOperand, if_neg (by change ¬ g < 5; omega)]

theorem witness_StepKeepsRegisterDiscipline :
    (∃ t, step (idle (req 0x02#8) (srcOf [0xAC#8] [.serve, .wait 0])) = .next t ∧ t.run = some .rds32) ∧
    (∃ t, step (waitingR .rdu64 10) = .next t) ∧ (∃ t, step (waitingW 4) = .next t) ∧
    (∃ t, step (waitingV 4) = .next t) ∧ RegInv (idle (req 0x02#8) (srcOf [0xAC#8] [.serve, .wait 0])) :=
  ⟨exists_next (by decide), exists_next' (by decide), exists_next' (by decide), exists_next' (by decide), ⟨rfl, rfl, rfl, rfl⟩⟩

theorem witness_IdleBlockHoldsResetValues :
    (RegInv (waitingR .rdu64 10) ∧ ∃ t, step (waitingR .rdu64 10) = .next t ∧ t.run = none) ∧
    (∃ t, exec .rdu64 (waitingR .rdu64 10) = .next t ∧ t.resps ≠ (waitingR .rdu64 10).resps) :=
  ⟨⟨witness_RegInv.2.2.2.1, exists_next (by decide)⟩, exists_next (by decide)⟩

theorem witness_CommandsAreHeldWhileOneRuns :
    ((waitingR .rds32 5).run = some .rds32 ∧ Instr.zze32 ≠ .rds32) ∧
    (∃ t, step { waitingR .rds32 5 with reqs := [req 0x00#8] } = .next t) ∧
    ((idle (req 0x00#8)).run = none ∧ (idle (req 0x00#8)).reqs = [req 0x00#8] ∧
      ∃ t, exec .zze32 (idle (req 0x00#8)) = .next t) :=
  ⟨by decide, exists_next' (by decide), rfl, rfl, exists_next' (by decide)⟩

theorem witness_OperandsAreSampledAtAcceptance :
    (waitingW 4).run = some .wrs32 ∧ ∃ t, exec .wrs32 (waitingW 4) = .next t := ⟨rfl, exists_next' (by decide)⟩

theorem witness_UnnamedOperandPartsAreIgnored :
    (Op.zze.operand = .int ∧ (req 0x00#8 0xDEADBEEF00000001#64).opndInt.setWidth Fam.f32.W =
      (req 0xFF#8 1#64 7#80).opndInt.setWidth Fam.f32.W) ∧
    (Op.r2i.operand = .rep ∧ ∀ g, g < Fam.f32.N → repSlot (req 0x04#8 0 0xFF0000000005#80).opndRep g =
      repSlot (req 0x04#8 9 0x05#80).opndRep g) ∧ Op.rds.operand = .none := by decide

theorem witness_ResultFieldsUnusedPartsAreZero :
    (∃ t, exec .zze32 (idle (req 0x00#8 0xFFFFFFFF#64)) = .next t ∧ t.resps = [Response.okInt 1#64]) ∧
    (∃ t, exec .i2r32 (idle (req 0x06#8 0xFFFFFFFF#64)) = .next t ∧ t.resps = [Response.okRep 0x0FFFFFFFFF#80]) ∧
    (∃ t, exec .rds32 (idle (req 0x02#8)) = .next t ∧ t.resps = [Response.fail .unexpectedEndOfInput]) ∧
    (∃ t, exec .wrs32 (idle (req 0x05#8)) = .next t ∧ t.resps = [Response.okNone]) :=
  ⟨exists_next (by decide), exists_next (by decide), exists_next (by decide), exists_next (by decide)⟩

/-- A command presented to an idle block, as most statements assume it. -/
theorem witness_presented : ∀ w : Byte, (idle (req w)).run = none ∧ (idle (req w)).reqs = req w :: [] :=
  fun _ => ⟨rfl, rfl⟩

theorem witness_ZzeEncodesSigned :
    ((idle (req 0x00#8)).run = none ∧ (idle (req 0x00#8)).reqs = req 0x00#8 :: []) ∧
    0 ≤ (BitVec.intMax Fam.f32.W).toInt ∧ (BitVec.intMin Fam.f32.W).toInt < 0 ∧ 0 ≤ (0 : BitVec Fam.f64.W).toInt := by
  refine ⟨witness_presented _, by decide, by decide, by decide⟩

theorem witness_ZzdDecodesUnsigned :
    ((idle (req 0x01#8)).run = none ∧ (idle (req 0x01#8)).reqs = req 0x01#8 :: []) ∧
    (BitVec.allOnes Fam.f32.W).toNat % 2 = 1 ∧ (0 : BitVec Fam.f32.W).toNat % 2 = 0 :=
  ⟨witness_presented _, by decide, by decide⟩

theorem witness_ZigzagOrder :
    0 ≤ (BitVec.intMax Fam.f64.W).toInt ∧ (BitVec.intMin Fam.f64.W).toInt < 0 := by decide

theorem witness_PortAnswers :
    srcRead (srcOf [0x05#8]) = (some (.byte 0x05#8), srcAt [0x05#8] 1) ∧
    srcRead (srcAt [0x05#8] 1) = (some .eoi, srcAt [0x05#8] 1) ∧
    srcRead (srcOf [0x05#8] [.fail ⟨7⟩ 1]) = (some (.err ⟨7⟩), srcAt [0x05#8] 1) ∧
    snkWrite snkOf 0x05#8 = (some .ok, { out := [0x05#8], attached := true, script := [] }) ∧
    snkWrite (snkOf [.fail ⟨7⟩ false]) 0x05#8 = (some (.err ⟨7⟩), snkOf) ∧
    snkWrite (snkOf [.fail ⟨7⟩ true]) 0x05#8 =
      (some (.err ⟨7⟩), { out := [0x05#8], attached := true, script := [] }) := by decide

theorem witness_StreamsKeepTheirOrder :
    servesTo (srcOf [0x80#8, 0x01#8, 0x55#8] [.serve]) [0x80#8, 0x01#8] = some (srcAt [0x80#8, 0x01#8, 0x55#8] 2) ∧
    acceptsTo (snkOf [.accept]) [0x80#8, 0x01#8] = some { out := [0x80#8, 0x01#8], attached := true, script := [] } := by
  decide

theorem witness_WaitingHoldsEveryRegister :
    ((waitingR .rds32 5 (srcOf [0x01#8] [.wait 1])).run = some .rds32 ∧ Instr.rds32.op.port = .source ∧
      srcRead (waitingR .rds32 5 (srcOf [0x01#8] [.wait 1])).src = (none, srcAt [0x01#8] 1)) ∧
    ((waitingW 4 (snkOf [.wait [0x11#8]])).run = some .wrs32 ∧ Instr.wrs32.op.port = .sink ∧
      ∀ b, snkWrite (waitingW 4 (snkOf [.wait [0x11#8]])).snk b =
        (none, { out := [0x11#8], attached := true, script := [] })) ∧
    (waitingR .rds32 0 { srcOf [] with attached := false }).src.attached = false ∧
    (waitingW 0 { snkOf with attached := false }).snk.attached = false :=
  ⟨by decide, ⟨rfl, rfl, fun _ => rfl⟩, rfl, rfl⟩

/-- The six rows of the beat table, at `GIDX = N` where the row admits it and at `GIDX = N - 1` where it does not. -/
theorem witness_DecoderBeatTable :
    (waitingR .rds32 5).gidx.toNat ≤ Fam.f32.N ∧
    srcRead (waitingR .rds32 5 (srcOf [] [.wait 0])).src = (none, srcOf []) ∧
    srcRead (waitingR .rds32 5).src = (some .eoi, srcOf []) ∧
    srcRead (waitingR .rds32 5 (srcOf [] [.fail ⟨7⟩ 0])).src = (some (.err ⟨7⟩), srcOf []) ∧
    (srcRead (waitingR .rds32 5 (srcOf [0x00#8])).src = (some (.byte 0x00#8), srcAt [0x00#8] 1) ∧
      (waitingR .rds32 5 (srcOf [0x00#8])).gidx.toNat = Fam.f32.N) ∧
    ((waitingR .rds32 4).gidx.toNat < Fam.f32.N ∧ (0x80#8).getLsbD 7 = true ∧ (0x7F#8).getLsbD 7 = false) := by decide

/-- What `RDS`, `RDR` and `RDU` assume, at every boundary: `N` bytes with bit 7 set, then each answer of the source; `N - 1`
bytes and a terminator; an empty source. -/
def ReadHypotheses (w : Byte) : Prop :=
    (idle (req w)).run = none ∧ (idle (req w)).reqs = req w :: [] ∧
    (∀ b ∈ cont 5, continues b = true) ∧ (cont 5).length ≤ Fam.f32.N ∧
    servesTo (srcOf (cont 6)) (cont 5) = some (srcAt (cont 6) 5) ∧
    srcRead (srcAt (cont 6) 5) = (some (.byte 0x80#8), srcAt (cont 6) 6) ∧
    srcRead (srcAt (cont 5) 5) = (some .eoi, srcAt (cont 5) 5) ∧
    srcRead (srcAt (cont 5) 5 [.fail ⟨7⟩ 0]) = (some (.err ⟨7⟩), srcAt (cont 5) 5) ∧
    srcRead (srcAt (cont 5) 5 [.wait 0]) = (none, srcAt (cont 5) 5) ∧
    (srcRead (srcAt (cont 4 ++ [0x08#8]) 4) = (some (.byte 0x08#8), srcAt (cont 4 ++ [0x08#8]) 5) ∧
      (cont 4).length < Fam.f32.N ∧ continues 0x08#8 = false) ∧
    servesTo (srcOf []) [] = some (srcOf [])

theorem witness_read (w : Byte) : ReadHypotheses w := by
  refine ⟨rfl, rfl, by decide, by decide, by decide, by decide, by decide, by decide, by decide, by decide, by decide⟩

theorem witness_RdsReadsSigned : ReadHypotheses 0x02#8 := witness_read _

theorem witness_RdrStoresVerbatim : ReadHypotheses 0x03#8 := witness_read _

theorem witness_RduReadsUnsigned : ReadHypotheses 0x08#8 := witness_read _

theorem witness_WaitingDecodersResume :
    (∀ b ∈ cont 2 ++ cont 3, continues b = true) ∧ (cont 2 ++ cont 3).length ≤ Fam.f32.N ∧
    servesTo (srcOf (cont 3)) (cont 3) = some (srcAt (cont 3) 3) ∧ srcRead (srcAt (cont 3) 3) = (some .eoi, srcAt (cont 3) 3) := by
  decide

theorem witness_LengthBoundary :
    (∀ op : Op, op = .rds ∨ op = .rdr ∨ op = .rdu → op.port = .source) ∧ (cont 10).length = Fam.f64.N ∧
    servesTo (srcOf (cont 11)) (cont 10) = some (srcAt (cont 11) 10) ∧
    srcRead (srcAt (cont 11) 10) = (some (.byte 0x80#8), srcAt (cont 11) 11) ∧
    srcRead (srcAt (cont 10) 10) = (some .eoi, srcAt (cont 10) 10) ∧
    srcRead (srcAt (cont 10) 10 [.fail ⟨7⟩ 0]) = (some (.err ⟨7⟩), srcAt (cont 10) 10) := by
  refine ⟨?_, by decide⟩
  rintro op (rfl | rfl | rfl) <;> rfl

theorem witness_DecoderStopsAtTerminator :
    (∀ x ∈ cont 4, continues x = true) ∧ continues 0x08#8 = false ∧ (cont 4).length < Fam.f32.N ∧
    servesTo (srcOf (cont 4 ++ [0x08#8, 0x55#8])) (cont 4 ++ [0x08#8]) = some (srcAt (cont 4 ++ [0x08#8, 0x55#8]) 5) ∧
    srcRead (srcAt (cont 4 ++ [0x08#8, 0x55#8]) 5) = (some (.byte 0x55#8), srcAt (cont 4 ++ [0x08#8, 0x55#8]) 6) := by decide

theorem witness_AcceptedLanguage :
    (idle (req 0x02#8) (srcOf (cont 4 ++ [0x08#8]))).src =
      { data := cont 4 ++ [0x08#8], pos := 0, attached := true, script := [] } ∧
    ∃ t, exec .rds32 (idle (req 0x02#8) (srcOf (cont 4 ++ [0x08#8]))) = .next t ∧
      t.resps = [Response.okInt 0x80000000#64] ∧ t.src.pos = 5 := ⟨rfl, exists_next (by decide)⟩

theorem witness_NonMinimalEncodingsAccepted :
    (∀ x ∈ ([] : List Byte), continues x = true) ∧ continues 0x7F#8 = false ∧ ([] : List Byte).length + 3 + 2 ≤ Fam.f32.N ∧
    servesTo (srcOf [0xFF#8, 0x80#8, 0x80#8, 0x80#8, 0x00#8]) ([] ++ [0x7F#8 ||| 0x80#8] ++ List.replicate 3 0x80#8 ++ [0x00#8]) =
      some (srcAt [0xFF#8, 0x80#8, 0x80#8, 0x80#8, 0x00#8] 5) := by decide

theorem witness_ExcessBitsDropped :
    (∀ x ∈ cont 9, continues x = true) ∧ continues 0x7E#8 = false ∧ (cont 9).length + 1 = Fam.f64.N ∧
    servesTo (srcOf (cont 9 ++ [0x7E#8])) (cont 9 ++ [0x7E#8]) = some (srcAt (cont 9 ++ [0x7E#8]) 10) := by decide

theorem witness_R2iConverts :
    (4 < Fam.f32.N ∧ continues (repSlot 0x0880808080#80 4) = false ∧
      ∀ j, j < 4 → continues (repSlot 0x0880808080#80 j) = true) ∧
    (∀ g, g < Fam.f32.N → continues (repSlot 0x008080808080#80 g) = true) := by decide

theorem witness_DefaultRepresentation :
    ((idle (req 0x04#8)).reqs = [req 0x04#8] ∧ (req 0x04#8).opndRep = defaultRep) ∧
    (req 0x14#8 0 0x0080#80).opndRep = 0x0080#80 := by decide

theorem witness_EncoderBeatTable :
    (waitingW 4).gidx.toNat < Fam.f32.N ∧
    (snkWrite (waitingW 4 (snkOf [.wait []])).snk 0x0F#8).1 = none ∧
    (snkWrite (waitingW 4 (snkOf [.fail ⟨7⟩ false])).snk 0x0F#8).1 = some (.err ⟨7⟩) ∧
    ((snkWrite (waitingW 3).snk 0xFF#8).1 = some .ok ∧ (waitingW 3).rem.setWidth Fam.f32.W >>> 7 ≠ 0) ∧
    ((snkWrite (waitingW 4).snk 0x0F#8).1 = some .ok ∧ (waitingW 4).rem.setWidth Fam.f32.W >>> 7 = 0) ∧
    (slotGet (waitingV 3).buf 3).getLsbD 7 = true ∧ (slotGet (waitingV 4).buf 4).getLsbD 7 = false := by decide

/-- What `WRS` and `WRU` assume: before the first byte and before the last, with each answer of the sink. -/
theorem witness_WrsWritesSigned :
    enc .f32 ((req 0x05#8 0xFFFFFFFF#64).opndInt.setWidth 32) =
      [0xFF#8, 0xFF#8, 0xFF#8, 0xFF#8] ++ 0x0F#8 :: [] ∧
    enc .f64 (req 0x15#8 300#64).opndInt = [] ++ 0xAC#8 :: [0x02#8] ∧
    acceptsTo snkOf [0xFF#8, 0xFF#8, 0xFF#8, 0xFF#8] =
      some { out := [0xFF#8, 0xFF#8, 0xFF#8, 0xFF#8], attached := true, script := [] } ∧
    acceptsTo snkOf [] = some snkOf ∧
    (snkWrite { out := [0xFF#8], attached := true, script := [] } 0x0F#8).1 = some .ok ∧
    (snkWrite (snkOf [.fail ⟨7⟩ false]) 0xAC#8).1 = some (.err ⟨7⟩) ∧ (snkWrite (snkOf [.wait []]) 0xAC#8).1 = none := by decide

theorem witness_WruWritesUnsigned :
    enc .f32 (zzd ((req 0x09#8 1#64).opndInt.setWidth 32)) = [0xFF#8, 0xFF#8, 0xFF#8, 0xFF#8] ++ 0x0F#8 :: [] ∧
    enc .f64 (zzd (req 0x19#8 600#64).opndInt) = [] ++ 0xAC#8 :: [0x02#8] ∧
    acceptsTo snkOf [0xFF#8, 0xFF#8, 0xFF#8, 0xFF#8] =
      some { out := [0xFF#8, 0xFF#8, 0xFF#8, 0xFF#8], attached := true, script := [] } ∧
    (1#32).toNat % 2 = 1 ∧ (600#32).toNat % 2 = 0 := by decide

theorem witness_I2rStoresEncoding : (idle (req 0x06#8)).run = none ∧ (idle (req 0x06#8)).reqs = req 0x06#8 :: [] :=
  witness_presented _

theorem witness_WrrWritesVerbatim :
    (∃ g, g < Fam.f32.N ∧ continues (repSlot 0x0880808080#80 g) = false) ∧
    repBytes .f32 0x0880808080#80 = cont 4 ++ 0x08#8 :: [] ∧
    acceptsTo snkOf (cont 4) = some { out := cont 4, attached := true, script := [] } ∧
    (∀ g, g < Fam.f32.N → continues (repSlot 0x008080808080#80 g) = true) ∧
    (4 < Fam.f32.N ∧ continues (repSlot 0x0880808080#80 4) = false ∧
      ∀ j, j < 4 → continues (repSlot 0x0880808080#80 j) = true) :=
  ⟨⟨4, by decide, by decide⟩, by decide, by decide, by decide, by decide⟩

theorem witness_WaitingEncodersResume :
    (Instr.wrs32.op = .wrs ∧ enc .f32 0xFFFFFFFF#32 = [0xFF#8, 0xFF#8] ++ [0xFF#8, 0xFF#8] ++ 0x0F#8 :: [] ∧
      acceptsTo snkOf [0xFF#8, 0xFF#8] = some { out := [0xFF#8, 0xFF#8], attached := true, script := [] }) ∧
    ((∃ g, g < Fam.f32.N ∧ continues (repSlot 0x0880808080#80 g) = false) ∧
      repBytes .f32 0x0880808080#80 = cont 2 ++ cont 2 ++ 0x08#8 :: [] ∧
      acceptsTo snkOf (cont 2) = some { out := cont 2, attached := true, script := [] }) :=
  ⟨by decide, ⟨4, by decide, by decide⟩, by decide, by decide⟩

theorem witness_EncodingIsCanonical :
    (1 ≤ 2 ∧ (300#32).toNat < 2 ^ (7 * 2)) ∧ 1 < (enc .f32 300#32).length := by decide

theorem witness_EncodingLengths : (BitVec.intMin Fam.f32.W).toInt < 0 ∧ (-1 : BitVec Fam.f64.W).toInt < 0 := by decide

theorem witness_EncodingIsMinimal :
    (enc .f32 0).getLast? = some 0x00#8 ∧ assemble Fam.f32.W [0x81#8, 0x80#8, 0x00#8] = 1 ∧
    [0x81#8, 0x80#8, 0x00#8] ≠ [] := by decide

theorem witness_DecodeOfEncodeIsIdentity :
    (servesTo (srcOf (enc .f64 (BitVec.intMin 64))) (enc .f64 (BitVec.intMin 64))).isSome = true ∧
    ((idle (req 0x12#8)).run = none ∧ (idle (req 0x12#8)).reqs = [req 0x12#8]) ∧
    ({ State.reset with reqs := [req 0x06#8 300#64, req 0x04#8 0 0x02AC#80] }.reqs =
      req 0x06#8 300#64 :: req 0x04#8 0 0x02AC#80 :: [] ∧ (req 0x06#8 300#64).opndInt.setWidth Fam.f32.W = 300#32 ∧
      repResult .f32 (padded (enc .f32 300#32)) = 0x02AC#80) := by decide

/-- Success, failure and waiting, for `RDS` and `RDR` alike. -/
theorem witness_RdsEqualsRdrThenR2i :
    (∃ t, exec .rds32 (idle (req 0x02#8) (srcOf [0x80#8, 0x00#8])) = .next t ∧ t.resps = [Response.okInt 0]) ∧
    (∃ u, exec .rdr32 (idle (req 0x02#8) (srcOf [0x80#8, 0x00#8])) = .next u ∧
      u.resps = [Response.okRep 0x0080#80]) ∧
    (∃ t, exec .rds32 (idle (req 0x02#8)) = .next t ∧ t.resps = [Response.fail .unexpectedEndOfInput]) ∧
    (∃ t, exec .rds32 (idle (req 0x02#8) (srcOf [] [.wait 0])) = .next t ∧ t.run = some .rds32) :=
  ⟨exists_next (by decide), exists_next (by decide), exists_next (by decide), exists_next (by decide)⟩

theorem witness_WrsEqualsI2rThenWrr :
    (∃ t, exec .wrs32 (idle (req 0x05#8 300#64)) = .next t ∧ t.run = none) ∧
    (∃ t, exec .wrs32 (idle (req 0x05#8 300#64) (srcOf []) (snkOf [.accept, .wait []])) = .next t ∧ t.run ≠ none) :=
  ⟨exists_next (by decide), exists_next (by decide)⟩

theorem witness_FusedCommandsAreCompositions :
    (∃ t, exec .rdu32 (idle (req 0x08#8) (srcOf [0x01#8])) = .next t) ∧
    (∃ u, exec .rds32 (idle (req 0x08#8) (srcOf [0x01#8])) = .next u ∧ u.resps = [Response.okInt 1#64]) ∧
    (req 0x00#8 1#64).opndInt = 1#64 ∧
    (∃ t, exec .wru32 (idle (req 0x09#8 5#64)) = .next t ∧ t.run = none) ∧
    (∃ t, exec .wru32 (idle (req 0x09#8 5#64) (srcOf []) (snkOf [.wait []])) = .next t ∧ t.run ≠ none) :=
  ⟨exists_next' (by decide), exists_next (by decide), rfl, exists_next (by decide), exists_next (by decide)⟩

theorem witness_UnsignedRoundTrip :
    (∃ t, exec .wru32 (idle (req 0x09#8 0xFFFFFFFF#64)) = .next t ∧ t.resps = [Response.okNone] ∧
      t.snk.out = [] ++ (cont 4 ++ [0x08#8])) ∧
    servesTo (idle (req 0x08#8) (srcOf (cont 4 ++ [0x08#8]))).src (cont 4 ++ [0x08#8]) = some (srcAt (cont 4 ++ [0x08#8]) 5) :=
  ⟨exists_next (by decide), by decide⟩

theorem witness_MixingSignedAndUnsigned :
    (∃ t, exec .wrs32 (idle (req 0x05#8 0x80000000#64)) = .next t ∧ t.resps = [Response.okNone] ∧
      t.snk.out = [] ++ (cont 4 ++ [0x08#8])) ∧
    (∃ t, exec .wru32 (idle (req 0x09#8 0xFFFFFFFF#64)) = .next t ∧ t.resps = [Response.okNone] ∧
      t.snk.out = [] ++ (cont 4 ++ [0x08#8])) ∧
    servesTo (idle (req 0x02#8) (srcOf (cont 4 ++ [0x08#8]))).src (cont 4 ++ [0x08#8]) = some (srcAt (cont 4 ++ [0x08#8]) 5) :=
  ⟨exists_next (by decide), exists_next (by decide), by decide⟩

theorem witness_OnlyTheNamedPortIsUsed :
    (∃ t, exec .rds32 (idle (req 0x02#8) (srcOf [0x01#8])) = .next t ∧ Instr.rds32.op.port ≠ .sink) ∧
    (∃ t, exec .wrs32 (idle (req 0x05#8)) = .next t ∧ Instr.wrs32.op.port ≠ .source) ∧
    (∃ t, exec .i2r64 (idle (req 0x16#8)) = .next t) :=
  ⟨exists_next (by decide), exists_next (by decide), exists_next' (by decide)⟩

theorem witness_StepsOnlyAppend :
    (∃ t, step (waitingR .rdu64 10) = .next t) ∧ (∃ t, step (waitingW 0) = .next t) ∧
    (∃ t, step { waitingW 2 with resetIn := [true] } = .next t) := ⟨exists_next' (by decide), exists_next' (by decide), exists_next' (by decide)⟩

theorem witness_FailureEntry :
    (∃ t, exec .rds32 (waitingR .rds32 5 (srcOf [0x00#8])) = .next t ∧ t.resps = [Response.fail .encodingTooLong]) ∧
    (∃ t, exec .wrs32 (waitingW 4 (snkOf [.fail ⟨7⟩ true])) = .next t ∧ t.resps = [Response.fail (.ioError ⟨7⟩)]) :=
  ⟨exists_next (by decide), exists_next (by decide)⟩

theorem witness_FailureAccounting :
    (Op.rds.port = .source ∧ (∀ b ∈ cont 5, continues b = true) ∧ (cont 5).length = Fam.f32.N ∧
      servesTo (idle (req 0x02#8) (srcOf (cont 6))).src (cont 5) = some (srcAt (cont 6) 5) ∧
      srcRead (srcAt (cont 6) 5) = (some (.byte 0x80#8), srcAt (cont 6) 6) ∧
      srcRead (srcAt (cont 5) 5) = (some .eoi, srcAt (cont 5) 5) ∧
      srcRead (srcAt (cont 5) 5 [.fail ⟨7⟩ 0]) = (some (.err ⟨7⟩), srcAt (cont 5) 5)) ∧
    (enc .f32 0xFFFFFFFF#32 = [0xFF#8, 0xFF#8, 0xFF#8, 0xFF#8] ++ 0x0F#8 :: [] ∧
      enc .f32 (zzd 1#32) = [] ++ 0xFF#8 :: [0xFF#8, 0xFF#8, 0xFF#8, 0x0F#8] ∧
      repBytes .f32 0x0880808080#80 = cont 4 ++ 0x08#8 :: [] ∧
      acceptsTo (snkOf [.accept, .accept, .accept, .accept, .fail ⟨7⟩ true]) (cont 4) =
        some { out := cont 4, attached := true, script := [.fail ⟨7⟩ true] } ∧
      (snkWrite { out := cont 4, attached := true, script := [.fail ⟨7⟩ true] } 0x08#8).1 = some (.err ⟨7⟩)) ∧
    ∃ g, g < Fam.f32.N ∧ continues (repSlot 0x0880808080#80 g) = false :=
  ⟨by decide, by decide, 4, by decide, by decide⟩

theorem witness_FailuresByCommand :
    (∃ t, exec .rds32 (waitingR .rds32 5) = .next t ∧ t.resps = [Response.fail .unexpectedEndOfInput]) ∧
    (∃ t, exec .rds32 (waitingR .rds32 5 (srcOf [0x00#8])) = .next t ∧ t.resps = [Response.fail .encodingTooLong]) ∧
    (∃ t, exec .wrs32 (waitingW 4 (snkOf [.fail ⟨7⟩ true])) = .next t ∧ t.resps = [Response.fail (.ioError ⟨7⟩)]) ∧
    (∃ t, exec .wrs32 (waitingW 4) = .next t ∧ t.resps = [Response.okNone]) ∧
    (∃ t, exec .zze32 (idle (req 0x00#8)) = .next t ∧ t.resps = [Response.okInt 0]) ∧
    (∃ t, exec .i2r32 (idle (req 0x06#8)) = .next t ∧ t.resps = [Response.okRep 0]) :=
  ⟨exists_next (by decide), exists_next (by decide), exists_next (by decide), exists_next (by decide), exists_next (by decide),
    exists_next (by decide)⟩

theorem witness_OnlyTwoInputsAreRefused :
    step (idle (req 0x0A#8)) = .refused (.reservedCommand 0x0A#8 .reservedOp) ∧
    step (idle (req 0x04#8 0 0x008080808080#80)) = .refused (.noTerminator .r2i32) ∧
    step (idle (req 0x07#8 0 0x008080808080#80)) = .refused (.noTerminator .wrr32) := ⟨rfl, rfl, rfl⟩

/-- Answering ports; a waiting command of each shape (`witness_RegInv`); a presented command with and without a Representation
operand. -/
theorem witness_CommandsTerminate :
    sourceAnswers (srcOf [0x80#8] [.serve, .fail ⟨7⟩ 1]) ∧ sinkAnswers (snkOf [.accept, .fail ⟨7⟩ true]) ∧
    (RegInv (waitingR .rdu64 10) ∧ (waitingR .rdu64 10).run = some .rdu64) ∧
    (RegInv (waitingV 4) ∧ (waitingV 4).run = some .wrr32) ∧
    (RegInv (idle (req 0x04#8 0 0x0880808080#80)) ∧ Instr.r2i32.op.operand = .rep ∧
      ∃ g, g < Instr.r2i32.fam.N ∧ continues (repSlot 0x0880808080#80 g) = false) ∧
    (idle (req 0x02#8)).src.script = [] ∧ Instr.rds32.op.operand ≠ .rep := by
  refine ⟨⟨rfl, fun n h => by simp [srcOf] at h⟩, ⟨rfl, fun n h => by simp [snkOf] at h⟩,
    ⟨witness_RegInv.2.2.2.1, rfl⟩, ⟨witness_RegInv.2.2.2.2.2, rfl⟩, ⟨⟨rfl, rfl, rfl, rfl⟩, rfl, 4, by decide, by decide⟩, rfl, by decide⟩

theorem witness_RepresentationsAreWellFormed :
    (RegInv (waitingR .rdr32 4 (srcOf [0x7F#8])) ∧ ∃ t, exec .rdr32 (waitingR .rdr32 4 (srcOf [0x7F#8])) = .next t ∧
      t.resps = [Response.okRep 0x7F80808080#80]) ∧
    (RegInv (idle (req 0x06#8 300#64)) ∧ ∃ t, exec .i2r32 (idle (req 0x06#8 300#64)) = .next t ∧
      t.resps = [Response.okRep 0x02AC#80]) := by
  refine ⟨⟨⟨by decide, rfl, ?_, by decide, by decide⟩, exists_next (by decide)⟩, ⟨rfl, rfl, rfl, rfl⟩, exists_next (by decide)⟩
  change ∀ g, g < 4 → _
  decide

end Sys2Proof.Tests
end

section
/-! Proofs: the reset values of the working registers (10_state.md R29, R35). -/

namespace Sys2Proof.Machine

open Sys2Proof

/-! ### Working registers at their reset values -/

/-- Every working register but `RUN` holds its reset value (10_state.md R29, R35). -/
def WorkZero (s : State) : Prop :=
  s.acc = 0 ∧ s.rem = 0 ∧ s.gidx = 0 ∧ s.buf = zeroSlots

theorem workZero_reset : WorkZero State.reset := ⟨rfl, rfl, rfl, rfl⟩

theorem workZero_resetBlock (s : State) : WorkZero (resetBlock s) := ⟨rfl, rfl, rfl, rfl⟩

theorem workZero_ended (s : State) (rest : List Request) (src : Source) (snk : Sink) (r : Response) :
    WorkZero (ended s rest src snk r) := ⟨rfl, rfl, rfl, rfl⟩

/-- The idle case of the register discipline. -/
theorem RegInv.workZero {s : State} (h : RegInv s) (hrun : s.run = none) : WorkZero s := by
  simpa [RegInv, WorkZero, hrun] using h

/-- `WorkZero` with `BUF` read slot by slot, the form in which the obligations speak. -/
theorem WorkZero.registers {s : State} (h : WorkZero s) :
    s.acc = 0 ∧ s.rem = 0 ∧ s.gidx = 0 ∧ ∀ g, slotGet s.buf g = 0x00#8 := by
  obtain ⟨hacc, hrem, hgidx, hbuf⟩ := h
  exact ⟨hacc, hrem, hgidx, fun g => by rw [hbuf]; exact slotGet_zeroSlots g⟩

/-- A slot buffer of zeros drives the default Representation value (10_state.md R24, R31). -/
theorem repResult_zeroSlots (f : Fam) : repResult f zeroSlots = defaultRep := by
  cases f <;> decide

/-! ### What `exec` and `step` leave in an idle block -/

/-- A command that delivers a response leaves the block idle at its reset values, whatever the registers held. -/
theorem exec_response_idle {i : Instr} {s t : State} (h : exec i s = .next t) (hresp : t.resps ≠ s.resps) :
    t.run = none ∧ WorkZero t := by
  obtain ⟨rfl, -⟩ | ⟨-, -, ⟨-, hsame⟩ | ⟨r, hended, -⟩⟩ := exec_spec h
  · exact absurd rfl hresp
  · exact absurd hsame hresp
  · rw [hended]
    exact ⟨rfl, workZero_ended ..⟩

/-- A command leaves an idle block at its reset values, provided it found it so where it found it idle. -/
theorem exec_idle_workZero {i : Instr} {s t : State} (hs : s.run = none → WorkZero s) (h : exec i s = .next t)
    (ht : t.run = none) : WorkZero t := by
  obtain ⟨rfl, -⟩ | ⟨-, -, ⟨hrun, -⟩ | ⟨r, hended, -⟩⟩ := exec_spec h
  · exact hs ht
  · simp [hrun] at ht
  · rw [hended]
    exact workZero_ended ..

/-- The same for a step: reset clears the registers, a command does as `exec_idle_workZero` says, and an idle block with
nothing presented keeps them. -/
theorem step_idle_workZero {s t : State} (hs : s.run = none → WorkZero s) (h : step s = .next t)
    (ht : t.run = none) : WorkZero t := by
  obtain ⟨rest, -, rfl⟩ | ⟨i, -, hexec⟩ | ⟨hrun, -, rfl⟩ := step_cases h
  · exact workZero_resetBlock _
  · exact exec_idle_workZero (s := { s with resetIn := s.resetIn.tail }) hs hexec ht
  · exact hs hrun

/-- With the reset input high, a step is the reset of the block. -/
theorem step_reset {s : State} {rest : List Bool} (h : s.resetIn = true :: rest) :
    step s = .next (resetBlock { s with resetIn := rest }) := by
  simp [step, h]

/-! ### The obligations -/

/-- Settles O11: the idle case of the register discipline is kept by every step, and every response is delivered by the
one operation that clears the registers. -/
theorem idleBlockHoldsResetValues : Obligations.IdleBlockHoldsResetValues := by
  unfold Obligations.IdleBlockHoldsResetValues
  refine ⟨fun s t hinv hstep ht => ?_, fun i s t hexec hresp => ?_⟩
  · exact (step_idle_workZero hinv.workZero hstep ht).registers
  · obtain ⟨hrun, hzero⟩ := exec_response_idle hexec hresp
    exact ⟨hrun, hzero.registers⟩

/-- Settles O8: `State.reset` and the state after a reset step both hold the reset values. -/
theorem resetValues : Obligations.ResetValues := by
  unfold Obligations.ResetValues
  refine ⟨?_, fun s rest h => ⟨_, step_reset h, ?_⟩⟩
  · obtain ⟨hacc, hrem, hgidx, hbuf⟩ := workZero_reset.registers
    exact ⟨rfl, rfl, hacc, hrem, hgidx, fun g _ => hbuf g, repResult_zeroSlots, rfl⟩
  · obtain ⟨hacc, hrem, hgidx, hbuf⟩ := (workZero_resetBlock { s with resetIn := rest }).registers
    exact ⟨rfl, rfl, hacc, hrem, hgidx, fun g _ => hbuf g, rfl, rfl, rfl⟩

end Sys2Proof.Machine
end

section
/-! Proofs: reserved command words (30_encoding.md R94). -/

namespace Sys2Proof.Machine

open Sys2Proof

/-- The reserved operation codes are the six above the last row of the opcode table (R92, R94). -/
theorem opOfCode_eq_none_iff : ∀ c : BitVec 4, opOfCode c = none ↔ 0xA ≤ c.toNat := by decide

/-- The words the decoder rejects, by the fields of R91. -/
theorem decode_reject_iff (w : Byte) :
    (∃ why, decode w = .reject why) ↔ zeroField w ≠ 0 ∨ 0xA ≤ (opField w).toNat := by
  rw [← opOfCode_eq_none_iff]
  by_cases hz : zeroField w = 0
  · cases hop : opOfCode (opField w) <;> simp [decode, hz, hop]
  · exact ⟨fun _ => .inl hz, fun _ => ⟨.zeroField, if_neg hz⟩⟩

/-- An idle block with the reset input low refuses a presented word that the decoder rejects, and names the word. -/
theorem step_reserved {s : State} {q : Request} {rest : List Request} {why : Reject}
    (hreset : s.resetIn.head? ≠ some true) (hrun : s.run = none) (hreqs : s.reqs = q :: rest)
    (hdecode : decode q.cmd = .reject why) : step s = .refused (.reservedCommand q.cmd why) := by
  simp [step_low hreset, stepCommand, hrun, hreqs, hdecode]

/-- Settles O3: the decoder rejects exactly the reserved words, and a step refuses what the decoder rejects. -/
theorem reservedWordsRefused : Obligations.ReservedWordsRefused := by
  unfold Obligations.ReservedWordsRefused
  refine ⟨decode_reject_iff, fun s q rest hreset hrun hreqs hword => ?_⟩
  obtain ⟨why, hdecode⟩ := (decode_reject_iff q.cmd).2 hword
  exact ⟨why, step_reserved hreset hrun hreqs hdecode⟩

end Sys2Proof.Machine
end

section
/-! Proofs: the byte lists the decoder accepts (30_encoding.md R87). -/

namespace Sys2Proof.Machine

open Sys2Proof

/-! ### Sources that deliver a byte list -/

/-- Delivering two byte lists one after the other. -/
theorem servesTo_append (src : Source) (bs cs : List Byte) :
    servesTo src (bs ++ cs) = (servesTo src bs).bind (servesTo · cs) := by
  induction bs generalizing src with
  | nil => rfl
  | cons b bs ih =>
    by_cases hb : (srcRead src).1 = some (.byte b)
    · simp [servesTo, hb, ih]
    · simp [servesTo, hb]

/-- A source that delivers `bs` and then `b`: where it stands in between, and its answer there. -/
theorem servesTo_snoc {src m : Source} {bs : List Byte} {b : Byte} (h : servesTo src (bs ++ [b]) = some m) :
    ∃ mid, servesTo src bs = some mid ∧ srcRead mid = (some (.byte b), m) := by
  rw [servesTo_append, Option.bind_eq_some_iff] at h
  obtain ⟨mid, hmid, hlast⟩ := h
  obtain ⟨m', hread, hdone⟩ := servesTo_cons hlast
  obtain rfl : m' = m := by simpa [servesTo] using hdone
  exact ⟨mid, hmid, hread⟩

/-- The reference source of 20_memory.md R70, with `pos` bytes of `data` delivered. -/
def referenceSource (data : List Byte) (pos : Nat) : Source :=
  { data := data, pos := pos, attached := true, script := [] }

theorem srcRead_referenceSource_byte {data : List Byte} {pos : Nat} {b : Byte} (h : data[pos]? = some b) :
    srcRead (referenceSource data pos) = (some (.byte b), referenceSource data (pos + 1)) := by
  simp [srcRead, srcServe, referenceSource, h]

theorem srcRead_referenceSource_end {data : List Byte} {pos : Nat} (h : data[pos]? = none) :
    srcRead (referenceSource data pos) = (some .eoi, referenceSource data pos) := by
  simp [srcRead, srcServe, referenceSource, h]

/-- The reference source delivers its data in order. -/
theorem servesTo_referenceSource (pre bs post : List Byte) :
    servesTo (referenceSource (pre ++ bs ++ post) pre.length) bs =
      some (referenceSource (pre ++ bs ++ post) (pre ++ bs).length) := by
  induction bs generalizing pre with
  | nil => simp [servesTo]
  | cons b bs ih =>
    have hread := srcRead_referenceSource_byte (data := pre ++ b :: bs ++ post) (pos := pre.length) (b := b) (by simp)
    rw [servesTo, hread, if_pos rfl]
    simpa using ih (pre ++ [b])

/-! ### What a decoder command answers -/

section read

variable {f : Fam} {op : Op} {s : State} {q : Request} {rest : List Request} {bs : List Byte} {b : Byte} {m : Source}

/-- A decoder command accepted by an idle block, with every answer of the source after `bs`. -/
theorem readOutcome_exec (hport : op.port = .source) (hrun : s.run = none) (hreqs : s.reqs = q :: rest)
    (hbs : ∀ x ∈ bs, continues x = true) (hlen : bs.length ≤ f.N) (hserve : servesTo s.src bs = some m) :
    readOutcome (.of f op) (fun l => finishOf (.of f op) (assemble (Instr.of f op).fam.W l) (padded l)) s rest bs m
      (exec (.of f op) s) := by
  rw [exec_read hport hrun hreqs]
  exact readOutcome_runBeats _ s rest [] bs s.src m hbs (by simpa using hlen) hserve

/-- A decoder command that is delivered a terminated byte list within `N` bytes forms its response from that list. -/
theorem exec_accepted (hport : op.port = .source) (hrun : s.run = none) (hreqs : s.reqs = q :: rest)
    (hbs : ∀ x ∈ bs, continues x = true) (hb : continues b = false) (hlen : bs.length < f.N)
    (hserve : servesTo s.src (bs ++ [b]) = some m) :
    exec (.of f op) s = .next (ended s rest m s.snk
      (finishOf (.of f op) (assemble (Instr.of f op).fam.W (bs ++ [b])) (padded (bs ++ [b])))) := by
  obtain ⟨mid, hmid, hread⟩ := servesTo_snoc hserve
  obtain ⟨-, -, -, hterm, -⟩ := readOutcome_exec hport hrun hreqs hbs hlen.le hmid
  exact hterm b m hread (by simpa using hlen) hb

/-- `exec_accepted` for `RDS`, whose response is the assembled value (41_decoder.md R124). -/
theorem exec_rds_accepted (hrun : s.run = none) (hreqs : s.reqs = q :: rest)
    (hbs : ∀ x ∈ bs, continues x = true) (hb : continues b = false) (hlen : bs.length < f.N)
    (hserve : servesTo s.src (bs ++ [b]) = some m) :
    exec (.of f .rds) s = .next (ended s rest m s.snk (.okInt (intResult f (assemble f.W (bs ++ [b]))))) := by
  have h := exec_accepted (op := .rds) rfl hrun hreqs hbs hb hlen hserve
  cases f <;> exact h

end read

/-- What a decoder command forms from an accepted byte list is a success. -/
theorem statusField_finishOf (i : Instr) (acc : BitVec i.fam.W) (buf : Slots) :
    statusField (finishOf i acc buf) = 0 := by
  cases i <;> rfl

theorem statusField_fail_ne_zero (k : Failure) : statusField (.fail k) ≠ 0 := by
  cases k <;> simp [statusField, failureStatus]

/-- Success and the number of bytes consumed, read off the state in which a command has ended. -/
theorem success_of_ended_iff {o : Host.Outcome State Fault Refusal} {s : State} {rest : List Request} {src : Source}
    {snk : Sink} {r₀ : Response} (ho : o = .next (ended s rest src snk r₀)) (n : Nat) :
    (∃ t r, o = .next t ∧ t.resps = s.resps ++ [r] ∧ statusField r = 0 ∧ t.src.pos = n) ↔
      statusField r₀ = 0 ∧ src.pos = n := by
  simp [ho]

/-! ### Where the decoder stops -/

/-- Where a decoder with room for `n` bytes stops in a byte list: behind some bytes with bit 7 set it finds the end of the
list, or no room for one byte more, or the terminator. -/
theorem exists_continuing_prefix (n : Nat) (l : List Byte) :
    ∃ bs post, l = bs ++ post ∧ (∀ x ∈ bs, continues x = true) ∧ bs.length ≤ n ∧
      (post = [] ∨ ∃ b tail, post = b :: tail ∧ (bs.length = n ∨ bs.length < n ∧ continues b = false)) := by
  induction l generalizing n with
  | nil => exact ⟨[], [], by simp⟩
  | cons b l ih =>
    match n, hb : continues b with
    | 0, _ => exact ⟨[], b :: l, by simp⟩
    | n + 1, false => exact ⟨[], b :: l, by simp [hb]⟩
    | n + 1, true =>
      obtain ⟨bs, post, rfl, hbs, hlen, hstop⟩ := ih n
      exact ⟨b :: bs, post, rfl, by simpa [hb] using hbs, by simpa using hlen, by simpa using hstop⟩

/-- Settles O32: of the three places where the decoder can stop in the list, only the terminator is a success, and there it
has consumed the whole list exactly when nothing follows. -/
theorem acceptedLanguage : Obligations.AcceptedLanguage := by
  unfold Obligations.AcceptedLanguage
  intro f op s q rest l hport hrun hreqs hsrc
  replace hsrc : s.src = referenceSource l 0 := hsrc
  constructor
  · intro hsuccess
    obtain ⟨bs, post, rfl, hbs, hlen, hstop⟩ := exists_continuing_prefix f.N l
    have hserve : servesTo s.src bs = some (referenceSource (bs ++ post) bs.length) :=
      hsrc ▸ servesTo_referenceSource [] bs post
    obtain ⟨hend, -, hlong, hterm, -⟩ := readOutcome_exec hport hrun hreqs hbs hlen hserve
    obtain rfl | ⟨b, tail, rfl, hstop⟩ := hstop
    · have hfail := hend _ (srcRead_referenceSource_end (by simp))
      exact absurd ((success_of_ended_iff hfail _).1 hsuccess).1 (statusField_fail_ne_zero _)
    · have hread := srcRead_referenceSource_byte (data := bs ++ b :: tail) (pos := bs.length) (b := b) (by simp)
      obtain hfull | ⟨hroom, hb⟩ := hstop
      · have hfail := hlong b _ hread (by rwa [fam_of])
        exact absurd ((success_of_ended_iff hfail _).1 hsuccess).1 (statusField_fail_ne_zero _)
      · have hpos := ((success_of_ended_iff (hterm b _ hread (by rwa [fam_of]) hb) _).1 hsuccess).2
        obtain rfl : tail = [] := by simpa [referenceSource] using hpos
        exact ⟨bs, b, rfl, hroom, hbs, hb⟩
  · rintro ⟨bs, b, rfl, hlen, hbs, hb⟩
    have hserve : servesTo s.src (bs ++ [b]) = some (referenceSource (bs ++ [b]) (bs ++ [b]).length) := by
      simpa [hsrc] using servesTo_referenceSource [] (bs ++ [b]) []
    rw [success_of_ended_iff (exec_accepted hport hrun hreqs hbs hb hlen hserve)]
    exact ⟨statusField_finishOf .., rfl⟩

end Sys2Proof.Machine
end

section
/-! Proofs: byte lists with one value (30_encoding.md R88, R89). -/

namespace Sys2Proof.Machine

open Sys2Proof

/-! ### Extra high-order zero groups -/

/-- Setting bit 7 makes a byte continue. -/
theorem continues_or_flag (b : Byte) : continues (b ||| 0x80#8) = true := by
  simp [continues]

/-- Setting bit 7 keeps the group. -/
theorem placeGroup_or_flag (w g : Nat) (b : Byte) : placeGroup w g (b ||| 0x80#8) = placeGroup w g b := by
  have hgroup : groupOf (b ||| 0x80#8) = groupOf b := by
    simp [groupOf, BitVec.extractLsb'_or]
  rw [placeGroup, placeGroup, hgroup]

/-- Bytes whose groups are zero add nothing, wherever they are placed. -/
theorem assembleFrom_eq_zero (w g : Nat) {bs : List Byte} (h : ∀ b ∈ bs, groupOf b = 0) : assembleFrom w g bs = 0#w := by
  induction bs generalizing g with
  | nil => rfl
  | cons b bs ih =>
    rw [List.forall_mem_cons] at h
    simp [assembleFrom, placeGroup, h.1, ih _ h.2]

/-- A byte list continued by zero groups has the value of the list without them (R88). -/
theorem assemble_zero_groups (w : Nat) (bs : List Byte) (b : Byte) (k : Nat) :
    assemble w (bs ++ [b ||| 0x80#8] ++ List.replicate k 0x80#8 ++ [0x00#8]) = assemble w (bs ++ [b]) := by
  have hzero : ∀ x ∈ List.replicate k 0x80#8 ++ [0x00#8], groupOf x = 0 := by
    simp only [List.mem_append, List.mem_replicate, List.mem_singleton]
    rintro x (⟨-, rfl⟩ | rfl) <;> decide
  rw [List.append_assoc, assemble, assembleFrom_append, assembleFrom_eq_zero _ _ hzero, BitVec.or_zero, ← assemble,
    assemble_snoc, placeGroup_or_flag, ← assemble_snoc]

/-- Settles O33: the list with the zero groups is accepted, and has the same value. -/
theorem nonMinimalEncodingsAccepted : Obligations.NonMinimalEncodingsAccepted := by
  unfold Obligations.NonMinimalEncodingsAccepted
  intro f s q rest bs b k m hrun hreqs hbs _ hlen hserve
  have hcont : ∀ x ∈ bs ++ [b ||| 0x80#8] ++ List.replicate k 0x80#8, continues x = true := by
    simp only [List.mem_append, List.mem_replicate, List.mem_singleton]
    rintro x ((hx | rfl) | ⟨-, rfl⟩)
    · exact hbs x hx
    · exact continues_or_flag b
    · decide
  rw [exec_rds_accepted hrun hreqs hcont (by decide) (by simp; omega) hserve, assemble_zero_groups]

/-! ### Bits outside the accumulator -/

/-- Masking a byte to the bits that lie inside the accumulator at group index `g` does not change what is placed (R89). -/
theorem placeGroup_mask (w g : Nat) (b : Byte) :
    placeGroup w g (b &&& BitVec.ofNat 8 (2 ^ (w - 7 * g) - 1)) = placeGroup w g b := by
  apply BitVec.eq_of_getLsbD_eq
  intro i hi
  rw [placeGroup_getLsbD, placeGroup_getLsbD, BitVec.getLsbD_and, BitVec.getLsbD_ofNat, Nat.testBit_two_pow_sub_one]
  by_cases hin : 7 * g ≤ i ∧ i < 7 * g + 7
  · simp [show i - 7 * g < 8 by omega, show i - 7 * g < w - 7 * g by omega]
  · simp [show (decide (7 * g ≤ i) && decide (i < 7 * g + 7)) = false by simpa using hin]

/-- Settles O34: the list of `N` bytes is accepted, and masking its last byte to the accumulator keeps its value. -/
theorem excessBitsDropped : Obligations.ExcessBitsDropped := by
  unfold Obligations.ExcessBitsDropped
  intro f s q rest bs b m hrun hreqs hbs hb hlen hserve
  have hlast : f.N - 1 = bs.length := by omega
  rw [exec_rds_accepted hrun hreqs hbs hb (by omega) hserve, assemble_snoc, assemble_snoc, hlast, placeGroup_mask]

end Sys2Proof.Machine
end

section
/-! Proofs: the zigzag mapper (40_zigzag.md R111, R112, R114). -/

namespace Sys2Proof.Machine

open Sys2Proof

/-! ### The maps as numbers, by sign and by parity -/

/-- The range of a family is twice its lower half, where the sign bit is clear. -/
theorem two_pow_fam_W (f : Fam) : 2 ^ f.W = 2 * 2 ^ (f.W - 1) := by
  cases f <;> decide

theorem toInt_nonneg_iff_lt_half (f : Fam) (v : BitVec f.W) : 0 ≤ v.toInt ↔ v.toNat < 2 ^ (f.W - 1) := by
  have hhalf := two_pow_fam_W f
  rw [BitVec.toInt_eq_toNat_cond]
  split <;> omega

/-- The even half of R111, as numbers. -/
theorem zze_toNat_of_nonneg {f : Fam} {v : BitVec f.W} (h : 0 ≤ v.toInt) :
    ((zze v).toNat : Int) = 2 * v.toInt := by
  have hlt := (toInt_nonneg_iff_lt_half f v).1 h
  have hhalf := two_pow_fam_W f
  rw [zze_toNat, if_pos hlt, BitVec.toInt_eq_toNat_cond, if_pos (by omega)]
  omega

/-- The odd half of R111, as numbers. -/
theorem zze_toNat_of_neg {f : Fam} {v : BitVec f.W} (h : v.toInt < 0) :
    ((zze v).toNat : Int) = 2 * -v.toInt - 1 := by
  have hge : ¬ v.toNat < 2 ^ (f.W - 1) := fun hlt => absurd ((toInt_nonneg_iff_lt_half f v).2 hlt) (by omega)
  have hhalf := two_pow_fam_W f
  rw [zze_toNat, if_neg hge, BitVec.toInt_eq_toNat_cond, if_neg (by omega)]
  omega

/-- A vector is the one its unsigned number names, modulo `2^W`. -/
theorem eq_ofInt_of_toNat_eq {w : Nat} {v : BitVec w} {k : Int} (h : (v.toNat : Int) = k) : v = BitVec.ofInt w k := by
  rw [← h, BitVec.ofInt_natCast, BitVec.ofNat_toNat, BitVec.setWidth_eq]

/-- The odd case of R112: the halves of odd numbers count the negative numbers from `-1` down. -/
theorem zzd_toInt_of_odd {f : Fam} {u : BitVec f.W} (h : u.toNat % 2 = 1) :
    (zzd u).toInt = -(u.toNat / 2 : Int) - 1 := by
  have hodd : ¬ u.toNat % 2 = 0 := by omega
  have hhalf := two_pow_fam_W f
  rw [BitVec.toInt_eq_toNat_cond, zzd_toNat, if_neg hodd, if_neg (by omega)]
  omega

/-- The even case of R112. -/
theorem zzd_toInt_of_even {f : Fam} {u : BitVec f.W} (h : u.toNat % 2 = 0) :
    (zzd u).toInt = (u.toNat / 2 : Int) := by
  rw [BitVec.toInt_eq_toNat_cond, zzd_toNat, if_pos h, if_pos (by omega)]
  omega

/-! ### The maps undo each other -/

/-- A sign is told by the parity of its encoding: `2v` is halved, `-2v - 1` is odd and its half is taken from the top. -/
theorem zzd_zze (f : Fam) (x : BitVec f.W) : zzd (zze x) = x := by
  have hhalf := two_pow_fam_W f
  apply BitVec.eq_of_toNat_eq
  rw [zzd_toNat, zze_toNat]
  by_cases h : x.toNat < 2 ^ (f.W - 1)
  · rw [if_pos h, if_pos (by omega)]
    omega
  · rw [if_neg h, if_neg (by omega)]
    omega

/-- A parity is told by the sign of its decoding: half of an even number lies in the lower half, the decoding of an odd
number in the upper. -/
theorem zze_zzd (f : Fam) (x : BitVec f.W) : zze (zzd x) = x := by
  have hhalf := two_pow_fam_W f
  apply BitVec.eq_of_toNat_eq
  rw [zze_toNat, zzd_toNat]
  by_cases h : x.toNat % 2 = 0
  · rw [if_pos h, if_pos (by omega)]
    omega
  · rw [if_neg h, if_neg (by omega)]
    omega

/-! ### The commands -/

/-- A one-step command accepted by an idle block: it answers, and every other field but the presented list is kept. -/
theorem exec_map_idle {i : Instr} (hmap : isMap i = true) {s : State} {q : Request} {rest : List Request}
    (hrun : s.run = none) (hreqs : s.reqs = q :: rest) :
    exec i s = .next (ended s rest s.src s.snk (valueOf i q)) := by
  rw [exec_map hmap, mapCommand_idle hrun hreqs]

theorem valueOf_zze (f : Fam) (q : Request) :
    valueOf (.of f .zze) q = .okInt (intResult f (zze (intOperand f q))) := by
  cases f <;> rfl

theorem valueOf_zzd (f : Fam) (q : Request) :
    valueOf (.of f .zzd) q = .okInt (intResult f (zzd (intOperand f q))) := by
  cases f <;> rfl

/-! ### The obligations -/

/-- Settles O17: the step is `exec_map_idle`, the value is `zze_toNat` read by the sign of the operand. -/
theorem zzeEncodesSigned : Obligations.ZzeEncodesSigned := by
  unfold Obligations.ZzeEncodesSigned
  refine ⟨by decide, fun f s q rest hrun hreqs => ?_, fun f v => ⟨fun h => ?_, fun h => ?_⟩, fun f => ?_, by decide⟩
  · rw [exec_map_idle (by cases f <;> rfl) hrun hreqs, valueOf_zze]
  · exact eq_ofInt_of_toNat_eq (zze_toNat_of_nonneg h)
  · exact eq_ofInt_of_toNat_eq (zze_toNat_of_neg h)
  · cases f <;> decide

/-- Settles O18: the step is `exec_map_idle`, the value is `zzd_toNat` read as signed, by the parity of the operand. -/
theorem zzdDecodesUnsigned : Obligations.ZzdDecodesUnsigned := by
  unfold Obligations.ZzdDecodesUnsigned
  refine ⟨by decide, fun f s q rest hrun hreqs => ?_, fun f u => ⟨zzd_toInt_of_odd, zzd_toInt_of_even⟩, fun f => ?_,
    by decide⟩
  · rw [exec_map_idle (by cases f <;> rfl) hrun hreqs, valueOf_zzd]
  · cases f <;> decide

/-- Settles O20, by the two compositions as numbers. -/
theorem zigzagMapsAreInverse : Obligations.ZigzagMapsAreInverse := by
  unfold Obligations.ZigzagMapsAreInverse
  exact fun f x => ⟨zzd_zze f x, zze_zzd f x⟩

end Sys2Proof.Machine
end

section
/-! Proofs: where a decoder command leaves the source (41_decoder.md R122, R123). -/

namespace Sys2Proof.Machine

open Sys2Proof

/-! ### The position of the source -/

/-- A byte that the source answers is the one at its position, and the position moves past it (20_memory.md R52). -/
theorem srcRead_byte {src m : Source} {b : Byte} (h : srcRead src = (some (.byte b), m)) :
    src.data[src.pos]? = some b ∧ m.pos = src.pos + 1 ∧ m.data = src.data := by
  obtain ⟨hdata, -, hanswer⟩ := srcRead_cases src _ m h
  obtain ⟨hnone, -⟩ | ⟨c, hc, hbyte, hpos⟩ | ⟨hend, -⟩ | ⟨e, herr, -⟩ := hanswer
  · simp at hnone
  · obtain rfl : b = c := by simpa using hc
    exact ⟨hbyte, hpos, hdata⟩
  · simp at hend
  · simp at herr

/-- A source that delivers a byte list moves by its length, and keeps its data. -/
theorem servesTo_pos_data {src m : Source} {bs : List Byte} (h : servesTo src bs = some m) :
    m.pos = src.pos + bs.length ∧ m.data = src.data := by
  induction bs generalizing src with
  | nil =>
    obtain rfl : src = m := by simpa [servesTo] using h
    exact ⟨rfl, rfl⟩
  | cons b bs ih =>
    obtain ⟨mid, hread, hrest⟩ := servesTo_cons h
    obtain ⟨-, hpos, hdata⟩ := srcRead_byte hread
    obtain ⟨hpos', hdata'⟩ := ih hrest
    exact ⟨by rw [hpos', hpos, List.length_cons]; omega, hdata'.trans hdata⟩

/-! ### The obligations -/

/-- Settles O30: the answers of the source after `N` bytes are clauses of `readOutcome`, and the source has moved by `N`
bytes and one more. -/
theorem lengthBoundary : Obligations.LengthBoundary := by
  unfold Obligations.LengthBoundary
  intro f op s q rest bs m hport hrun hreqs hbs hlen hserve
  obtain ⟨hend, herr, hlong, -, -⟩ := readOutcome_exec hport hrun hreqs hbs hlen.le hserve
  refine ⟨fun b src hread => ⟨?_, hlong b src hread (by rwa [fam_of])⟩, hend, herr⟩
  obtain ⟨hpos, -⟩ := servesTo_pos_data hserve
  obtain ⟨-, hlast, -⟩ := srcRead_byte hread
  omega

/-- Settles O31: the command ends with the source just behind the terminator, and the next byte it answers is the one at
its position. -/
theorem decoderStopsAtTerminator : Obligations.DecoderStopsAtTerminator := by
  unfold Obligations.DecoderStopsAtTerminator
  intro f op s q rest bs b m hport hrun hreqs hbs hb hlen hserve
  obtain ⟨hpos, hdata⟩ := servesTo_pos_data hserve
  rw [List.length_append, List.length_singleton] at hpos
  refine ⟨⟨_, statusField_finishOf .., exec_accepted hport hrun hreqs hbs hb hlen hserve⟩, hpos, hdata,
    fun c src hread => ?_⟩
  obtain ⟨hnext, -⟩ := srcRead_byte hread
  rwa [hdata, hpos] at hnext

end Sys2Proof.Machine
end

section
/-! Proofs: the command `R2I` (41_decoder.md R128). -/

namespace Sys2Proof.Machine

open Sys2Proof

/-- The meaning of `R2I` for both families. -/
theorem exec_r2i (f : Fam) (s : State) :
    exec (.of f .r2i) s = runCommand (.of f .r2i) (checkTerminator (.of f .r2i)) (loadBuf (Instr.of f .r2i).fam)
      (foldStep (Instr.of f .r2i).fam) s := by
  cases f <;> rfl

section r2i

variable {f : Fam} {s : State} {q : Request} {rest : List Request}

/-- `R2I` accepted by an idle block, with its first terminator in slot `k`. -/
theorem exec_r2i_terminator {k : Nat} (hrun : s.run = none) (hreqs : s.reqs = q :: rest) (hk : k < f.N)
    (hterm : continues (repSlot q.opndRep k) = false)
    (hcont : ∀ j, j < k → continues (repSlot q.opndRep j) = true) :
    exec (.of f .r2i) s = .next (ended s rest s.src s.snk
      (.okInt (intResult f (assemble f.W ((List.range (k + 1)).map (repSlot q.opndRep)))))) := by
  rw [← fam_of f .r2i] at hk
  rw [exec_r2i, runCommand_idle hrun hreqs (checkTerminator_none ⟨k, hk, hterm⟩),
    runBeats_fold_all _ s q rest k hk hterm hcont]
  cases f <;> rfl

/-- `R2I` presented to an idle block with no terminator in its `N` slots (10_state.md R26). -/
theorem exec_r2i_refused (hrun : s.run = none) (hreqs : s.reqs = q :: rest)
    (hcont : ∀ g, g < f.N → continues (repSlot q.opndRep g) = true) :
    exec (.of f .r2i) s = .refused (.noTerminator (.of f .r2i)) := by
  rw [exec_r2i, runCommand_refused hrun hreqs (checkTerminator_some (by rwa [fam_of]))]

end r2i

/-- Settles O35: the two ways in which `R2I` can be issued, `exec_r2i_terminator` and `exec_r2i_refused`. -/
theorem r2iConverts : Obligations.R2iConverts := by
  unfold Obligations.R2iConverts
  refine ⟨by decide, ?_, ?_, by decide, by decide, fun f => ?_⟩
  · exact fun f s q rest k hrun hreqs hk hterm hcont => exec_r2i_terminator hrun hreqs hk hterm hcont
  · exact fun f s q rest hrun hreqs hcont => exec_r2i_refused hrun hreqs hcont
  · cases f <;> decide

end Sys2Proof.Machine
end

section
/-! Proofs: the command `I2R` (42_encoder.md R146). -/

namespace Sys2Proof.Machine

open Sys2Proof

/-! ### Byte lists as Representation values -/

/-- `RepWF_W(R)` (10_state.md R22) in the terms of 30_encoding.md R81: a terminator in slot `k`, only continuing bytes below
it, only zeros above it. -/
theorem repWF_iff (f : Fam) (r : RepField) :
    repWF f r = true ↔ ∃ k, k < f.N ∧ continues (repSlot r k) = false ∧
      (∀ j, j < k → continues (repSlot r j) = true) ∧ ∀ j, j < 10 → k < j → repSlot r j = 0 := by
  simp [repWF, isTerminatorIndex, continues, BitVec.msb_eq_getLsbD_last, and_assoc, or_iff_not_imp_left]

/-- A byte list of at most `N` bytes stands in the slots as it is, with zeros beyond its end. -/
theorem repSlot_repResult_padded {f : Fam} {bs : List Byte} {g : Nat} (hlen : bs.length ≤ f.N) (hg : g < 10) :
    repSlot (repResult f (padded bs)) g = bs.getD g 0x00#8 := by
  rw [repSlot_repResult f _ g hg, slotGet_padded, if_pos hg]
  split
  · rfl
  · exact (List.getD_eq_default _ _ (by omega)).symm

/-- A terminated byte list of at most `N` bytes is stored as a well-formed value, with its last byte as the terminator. -/
theorem repWF_repResult_padded {f : Fam} {bs : List Byte} {b : Byte} (hbs : ∀ x ∈ bs, continues x = true)
    (hb : continues b = false) (hlen : bs.length < f.N) :
    repWF f (repResult f (padded (bs ++ [b]))) = true := by
  have hN := fam_N_le f
  have hslot {g : Nat} (hg : g < 10) : repSlot (repResult f (padded (bs ++ [b]))) g = (bs ++ [b]).getD g 0x00#8 :=
    repSlot_repResult_padded (by simpa using hlen) hg
  refine (repWF_iff f _).2 ⟨bs.length, hlen, ?_, fun j hj => ?_, fun j hj hbeyond => ?_⟩
  · rw [hslot (by omega)]
    simpa using hb
  · rw [hslot (by omega), List.getD_append _ _ _ _ hj, List.getD_eq_getElem _ _ hj]
    exact hbs _ (List.getElem_mem hj)
  · rw [hslot hj]
    exact List.getD_eq_default _ _ (by simpa using hbeyond)

/-- `ENC_W(v)` is a terminated byte list of at most `N` bytes (30_encoding.md R83, 42_encoder.md R143). -/
theorem enc_terminated (f : Fam) (v : BitVec f.W) :
    ∃ bs b, enc f v = bs ++ [b] ∧ bs.length < f.N ∧ (∀ x ∈ bs, continues x = true) ∧ continues b = false := by
  obtain ⟨bs, b, henc⟩ := enc_eq_snoc f v
  obtain ⟨hb, hlen, hbs, hlast⟩ := enc_split henc
  refine ⟨bs, b, henc, hlen, hbs, ?_⟩
  rw [hb, continues_encByte, hlast.1 rfl]
  exact bne_self_eq_false _

/-! ### The command -/

/-- `I2R` accepted by an idle block: it fills the slots and ends in the same step. -/
theorem exec_i2r {f : Fam} {s : State} {q : Request} {rest : List Request} (hrun : s.run = none)
    (hreqs : s.reqs = q :: rest) :
    exec (.of f .i2r) s =
      .next (ended s rest s.src s.snk (.okRep (repResult f (padded (enc f (intOperand f q)))))) := by
  have hbeats := runBeats_fill_all (.of f .i2r) s rest (remOf (.of f .i2r)) q
  rw [exec_run (by cases f <;> rfl), runCommand_idle hrun hreqs (by cases f <;> rfl)]
  cases f <;> exact congrArg _ hbeats

/-- Settles O40: the step is `exec_i2r`, and the slots hold a terminated byte list within `N` bytes. -/
theorem i2rStoresEncoding : Obligations.I2rStoresEncoding := by
  unfold Obligations.I2rStoresEncoding
  refine ⟨by decide, fun _ _ _ _ => exec_i2r, fun f v => ?_, fun f => ?_, by decide, by decide⟩
  · obtain ⟨bs, b, henc, hlen, hbs, hb⟩ := enc_terminated f v
    rw [henc]
    exact ⟨repWF_repResult_padded hbs hb hlen, fun g hg => repSlot_repResult_padded (by simpa using hlen) hg⟩
  · cases f <;> decide

end Sys2Proof.Machine
end

section
/-! Proofs: what `WRU` writes, `RDU` reads back (43_fused_unsigned.md R163). -/

namespace Sys2Proof.Machine

open Sys2Proof

/-! ### The value of an encoding -/

/-- One group and the remaining value make up the value (42_encoder.md R141). -/
theorem lowGroup_or_nextRem {w : Nat} (r : BitVec w) : (lowGroup r).setWidth w ||| nextRem r <<< 7 = r := by
  apply BitVec.eq_of_getLsbD_eq
  intro i hi
  by_cases hlow : i < 7
  · simp [lowGroup, hlow, hi]
  · simp [lowGroup, nextRem, hlow, hi, show 7 + (i - 7) = i by omega]

/-- Placing the byte of `r` and, seven bits further up, what is left of `r` places `r` (30_encoding.md R82). -/
theorem placeGroup_encByte_or_nextRem {w : Nat} (g : Nat) (r : BitVec w) :
    placeGroup w g (encByte r) ||| nextRem r <<< (7 * (g + 1)) = r <<< (7 * g) := by
  have hsplit : nextRem r <<< (7 * (g + 1)) = nextRem r <<< 7 <<< (7 * g) := by
    rw [← BitVec.shiftLeft_add]
    congr 1
    omega
  rw [placeGroup, groupOf_encByte, hsplit, ← BitVec.shiftLeft_or_distrib, lowGroup_or_nextRem]

/-- A value of at most `n` groups is assembled from its group sequence, placed from group index `g` on. -/
theorem assembleFrom_encGroups {w : Nat} (n g : Nat) (r : BitVec w) (hr : r.toNat < 2 ^ (7 * n)) :
    assembleFrom w g (encGroups n r) = r <<< (7 * g) := by
  induction n generalizing g r with
  | zero =>
    obtain rfl : r = 0#w := BitVec.eq_of_toNat_eq (by simpa using hr)
    simp [encGroups, assembleFrom]
  | succ n ih =>
    have hrest : assembleFrom w (g + 1) (if nextRem r = 0 then [] else encGroups n (nextRem r)) =
        nextRem r <<< (7 * (g + 1)) := by
      split
      next hz => simp [hz, assembleFrom]
      next =>
        refine ih (g + 1) (nextRem r) ?_
        rw [nextRem_toNat, Nat.div_lt_iff_lt_mul (by decide)]
        rwa [Nat.mul_succ, Nat.pow_add] at hr
    rw [encGroups, assembleFrom, hrest, placeGroup_encByte_or_nextRem]

/-- The value of `ENC_W(v)` is `v`: `N` groups are enough (42_encoder.md R143). -/
theorem assemble_enc (f : Fam) (v : BitVec f.W) : assemble f.W (enc f v) = v := by
  have hv : v.toNat < 2 ^ (7 * f.N) :=
    lt_of_lt_of_le v.isLt (Nat.pow_le_pow_right (by decide) (fam_W_le_groups f))
  rw [assemble, enc, assembleFrom_encGroups f.N 0 v hv, Nat.mul_zero, BitVec.shiftLeft_zero]

/-! ### Writing that succeeds -/

/-- A sink that accepts a byte list has it appended to its stream (20_memory.md R56). -/
theorem acceptsTo_out {snk m : Sink} {bs : List Byte} (h : acceptsTo snk bs = some m) : m.out = snk.out ++ bs := by
  induction bs generalizing snk with
  | nil =>
    obtain rfl : snk = m := by simpa [acceptsTo] using h
    simp
  | cons b bs ih =>
    obtain ⟨mid, hwrite, hrest⟩ := acceptsTo_cons h
    obtain ⟨-, ⟨hnone, -⟩ | ⟨-, hout⟩ | ⟨e, herr, -⟩⟩ := snkWrite_cases snk b _ mid hwrite
    · simp at hnone
    · rw [ih hrest, hout, List.append_assoc, List.singleton_append]
    · simp at herr

/-- Offering a byte list comes to a byte whose answer decides: the first that is not accepted, or the last. -/
theorem exists_deciding_offer (snk : Sink) (b : Byte) (bs : List Byte) :
    ∃ pre c post mid, b :: bs = pre ++ c :: post ∧ acceptsTo snk pre = some mid ∧
      ((snkWrite mid c).1 = some .ok → post = []) := by
  induction bs generalizing snk b with
  | nil => exact ⟨[], b, [], snk, rfl, rfl, fun _ => rfl⟩
  | cons b' bs ih =>
    by_cases hok : (snkWrite snk b).1 = some .ok
    · obtain ⟨pre, c, post, mid, hsplit, hmid, hlast⟩ := ih (snkWrite snk b).2 b'
      exact ⟨b :: pre, c, post, mid, by rw [hsplit, List.cons_append], by rwa [acceptsTo, if_pos hok], hlast⟩
    · exact ⟨[], b, b' :: bs, snk, rfl, rfl, fun h => absurd h hok⟩

section write

variable {f : Fam} {op : Op} {s t : State} {q : Request} {rest : List Request}

/-- `WRS` or `WRU` that is accepted and succeeds in the same step has appended the whole encoding: at the deciding byte, an
error and a wait give other responses. -/
theorem exec_enc_success (hop : op = .wrs ∨ op = .wru) (hrun : s.run = none) (hreqs : s.reqs = q :: rest)
    (hexec : exec (.of f op) s = .next t) (hresp : t.resps = s.resps ++ [.okNone]) :
    t.snk.out = s.snk.out ++ enc (Instr.of f op).fam (remOf (.of f op) q) := by
  obtain ⟨b, bs, henc⟩ : ∃ b bs, enc (Instr.of f op).fam (remOf (.of f op) q) = b :: bs := by
    obtain ⟨bs, b, henc⟩ := enc_eq_snoc _ (remOf (.of f op) q)
    exact List.exists_cons_of_ne_nil (by simp [henc])
  obtain ⟨pre, c, post, mid, hsplit, hmid, hlast⟩ := exists_deciding_offer s.snk b bs
  obtain ⟨hok, herr, hwait⟩ := writeOutcome_encode s rest _ [] pre post c s.snk mid (henc.trans hsplit) hmid
  simp only [List.length_nil, ← exec_enc hop hrun hreqs, hexec, Host.Outcome.next.injEq] at hok herr hwait
  obtain ⟨ans, snk, hwrite⟩ : ∃ ans snk, snkWrite mid c = (ans, snk) := ⟨_, _, rfl⟩
  obtain ⟨-, ⟨rfl, -⟩ | ⟨rfl, hout⟩ | ⟨e, rfl, -⟩⟩ := snkWrite_cases mid c ans snk hwrite
  · rw [hwait snk hwrite] at hresp
    simp [waitingEncode] at hresp
  · have hpost : post = [] := hlast (by rw [hwrite])
    rw [hok snk hwrite hpost, ended_snk, hout, acceptsTo_out hmid, henc, hsplit, hpost, List.append_assoc]
  · rw [herr e snk hwrite] at hresp
    simp at hresp

/-- `exec_enc_success` for `WRU`, which encodes `zzd_W` of its operand (43_fused_unsigned.md R162). -/
theorem exec_wru_success (hrun : s.run = none) (hreqs : s.reqs = q :: rest) (hexec : exec (.of f .wru) s = .next t)
    (hresp : t.resps = s.resps ++ [.okNone]) : t.snk.out = s.snk.out ++ enc f (zzd (intOperand f q)) := by
  have h := exec_enc_success (.inr rfl) hrun hreqs hexec hresp
  cases f <;> exact h

end write

/-! ### Reading an encoding -/

section read

variable {f : Fam} {s : State} {q : Request} {rest : List Request} {m : Source}

/-- `exec_accepted` for `RDU`, whose response is `zze_W` of the assembled value (43_fused_unsigned.md R161). -/
theorem exec_rdu_accepted {bs : List Byte} {b : Byte} (hrun : s.run = none) (hreqs : s.reqs = q :: rest)
    (hbs : ∀ x ∈ bs, continues x = true) (hb : continues b = false) (hlen : bs.length < f.N)
    (hserve : servesTo s.src (bs ++ [b]) = some m) :
    exec (.of f .rdu) s = .next (ended s rest m s.snk (.okInt (intResult f (zze (assemble f.W (bs ++ [b])))))) := by
  have h := exec_accepted (op := .rdu) rfl hrun hreqs hbs hb hlen hserve
  cases f <;> exact h

/-- `RDU` that is delivered `ENC_W(v)` returns `zze_W(v)` and consumes just that. -/
theorem exec_rdu_enc {v : BitVec f.W} (hrun : s.run = none) (hreqs : s.reqs = q :: rest)
    (hserve : servesTo s.src (enc f v) = some m) :
    exec (.of f .rdu) s = .next (ended s rest m s.snk (.okInt (intResult f (zze v)))) := by
  obtain ⟨bs, b, henc, hlen, hbs, hb⟩ := enc_terminated f v
  rw [henc] at hserve
  rw [exec_rdu_accepted hrun hreqs hbs hb hlen hserve, ← henc, assemble_enc]

end read

/-- Settles O50: the bytes written are `ENC_W(zzd_W(u))`, they are read as `zze_W(zzd_W(u))`, and that is `u` (R114). -/
theorem unsignedRoundTrip : Obligations.UnsignedRoundTrip := by
  unfold Obligations.UnsignedRoundTrip
  intro f s t s' q q' rest rest' bs m hrun hreqs hexec hresp hout hrun' hreqs' hserve
  obtain rfl : bs = enc f (zzd (intOperand f q)) :=
    List.append_cancel_left (hout.symm.trans (exec_wru_success hrun hreqs hexec hresp))
  rw [exec_rdu_enc hrun' hreqs' hserve, zze_zzd, intOperand]

end Sys2Proof.Machine
end

section
/-! Proofs: the status codes and the fields of a response (60_exceptions.md R171). -/

namespace Sys2Proof.Machine

open Sys2Proof

/-- Settles O59: each response is a constructor, and each field is defined by cases on it. -/
theorem statusCodes : Obligations.StatusCodes := by
  unfold Obligations.StatusCodes
  exact ⟨fun _ _ => ⟨rfl, rfl, rfl⟩, rfl, rfl, fun _ => ⟨rfl, rfl⟩, fun _ => ⟨rfl, rfl⟩,
    fun _ _ => ⟨rfl, rfl, rfl, rfl, rfl, rfl⟩⟩

end Sys2Proof.Machine
end

section
/-! Proofs: one beat of the decoder (41_decoder.md R126, 60_exceptions.md R176). -/

namespace Sys2Proof.Machine

open Sys2Proof

/-- A byte in hand while `GIDX < N`: it is accumulated and stored, and then its bit 7 decides. -/
theorem decodeBeat_byte {f : Fam} {finish : BitVec f.W → Slots → Response} {s : State} {src : Source} {b : Byte}
    (hread : srcRead s.src = (some (.byte b), src)) (hroom : s.gidx.toNat < f.N) :
    decodeBeat f finish s =
      if continues b then
        .go { s with
          src := src
          acc := accumulate f s.acc s.gidx.toNat b
          buf := slotSet s.buf s.gidx.toNat b
          gidx := s.gidx + 1 }
      else
        .done (ended s s.reqs src s.snk
          (finish (regValue f (accumulate f s.acc s.gidx.toNat b)) (slotSet s.buf s.gidx.toNat b))) := by
  simp only [decodeBeat, hread, if_neg hroom.ne]
  rfl

/-- Settles O25: the answers of the source are the cases of the beat, and with a byte in hand the length check comes
first, then `decodeBeat_byte`. -/
theorem decoderBeatTable : Obligations.DecoderBeatTable := by
  unfold Obligations.DecoderBeatTable
  intro f finish s src _
  refine ⟨fun hread => ?_, fun hread => ?_, fun e hread => ?_, fun b hread hfull => ?_, fun b hread hroom hb => ?_,
    fun b hread hroom hb => ?_⟩
  · simp only [decodeBeat, hread]
  · simp only [decodeBeat, hread]; rfl
  · simp only [decodeBeat, hread]; rfl
  · simp only [decodeBeat, hread, if_pos hfull]; rfl
  · have hgidx : BitVec.ofNat 4 (s.gidx.toNat + 1) = s.gidx + 1 := by simp [BitVec.ofNat_add]
    replace hb : continues b = true := hb
    rw [decodeBeat_byte hread hroom, if_pos hb, hgidx]
    rfl
  · replace hb : continues b = false := hb
    rw [decodeBeat_byte hread hroom, if_neg (by simp [hb]), accumulate, regValue_toReg]
    rfl

end Sys2Proof.Machine
end

section
/-! Proofs: the two refused inputs (60_exceptions.md R174). -/

namespace Sys2Proof.Machine

open Sys2Proof

/-- Everything a step can do when it refuses: a presented word has no meaning, or `exec` refuses the command it names. -/
theorem step_refused_cases {s : State} {r : Refusal} (h : step s = .refused r) :
    (∃ q rest why, s.run = none ∧ s.reqs = q :: rest ∧ decode q.cmd = .reject why ∧ r = .reservedCommand q.cmd why) ∨
    (∃ i, (s.run = some i ∨ s.run = none ∧ ∃ q rest, s.reqs = q :: rest ∧ decode q.cmd = .instr i) ∧
      exec i { s with resetIn := s.resetIn.tail } = .refused r) := by
  by_cases hreset : s.resetIn.head? = some true
  · obtain ⟨rest, hrest⟩ := List.head?_eq_some_iff.1 hreset
    simp [step_reset hrest] at h
  · rw [step_low hreset, stepCommand] at h
    split at h
    next i hrun => exact .inr ⟨i, .inl hrun, h⟩
    next hrun =>
      split at h
      next => simp at h
      next q rest hreqs =>
        split at h
        next i hdecode => exact .inr ⟨i, .inr ⟨hrun, q, rest, hreqs, hdecode⟩, h⟩
        next why hdecode => exact .inl ⟨q, rest, why, hrun, hreqs, hdecode, by simpa using h.symm⟩

/-- `R2I` and `WRR` are refused at issue when no slot of the operand is a terminator (10_state.md R26). -/
theorem exec_noTerminator {i : Instr} {s : State} {q : Request} {rest : List Request} (hop : i.op = .r2i ∨ i.op = .wrr)
    (hrun : s.run = none) (hreqs : s.reqs = q :: rest)
    (hcont : ∀ g, g < i.fam.N → continues (repSlot q.opndRep g) = true) :
    exec i s = .refused (.noTerminator i) := by
  have hmap : isMap i = false := by unfold isMap; obtain h | h := hop <;> rw [h]
  have hcheck : checkOf i = checkTerminator i := by unfold checkOf; obtain h | h := hop <;> rw [h]
  rw [exec_run hmap, runCommand_refused hrun hreqs (hcheck ▸ checkTerminator_some hcont)]

/-- An idle block with the reset input low executes the presented command (10_state.md R30). -/
theorem step_presented {s : State} {q : Request} {rest : List Request} {i : Instr}
    (hreset : s.resetIn.head? ≠ some true) (hrun : s.run = none) (hreqs : s.reqs = q :: rest)
    (hdecode : decode q.cmd = .instr i) : step s = exec i { s with resetIn := s.resetIn.tail } := by
  simp [step_low hreset, stepCommand, hrun, hreqs, hdecode]

/-- Settles O57: a step refuses by the decoder's rejection or by the check at issue, and each of the two refuses. -/
theorem onlyTwoInputsAreRefused : Obligations.OnlyTwoInputsAreRefused := by
  unfold Obligations.OnlyTwoInputsAreRefused
  refine ⟨fun s r hstep => ?_, fun s q rest hreset hrun hreqs => ⟨fun why => ?_, fun i hdecode hop hcont => ?_⟩⟩
  · obtain ⟨q, rest, why, hrun, hreqs, hdecode, hr⟩ | ⟨i, hi, hexec⟩ := step_refused_cases hstep
    · exact ⟨hrun, q, rest, hreqs, .inl ⟨why, hdecode, hr⟩⟩
    · obtain ⟨q, rest, hrun, hreqs, hop, hr, hcont⟩ := exec_refused hexec
      replace hrun : s.run = none := hrun
      replace hreqs : s.reqs = q :: rest := hreqs
      have hdecode : decode q.cmd = .instr i := by simpa [hrun, hreqs] using hi
      exact ⟨hrun, q, rest, hreqs, .inr ⟨i, hdecode, hop, hr, hcont⟩⟩
  · exact step_reserved hreset hrun hreqs
  · rw [step_presented hreset hrun hreqs hdecode]
    exact exec_noTerminator hop hrun hreqs hcont

end Sys2Proof.Machine
end

section
/-! Proofs: the bytes consumed or written before a failure (60_exceptions.md R179). -/

namespace Sys2Proof.Machine

open Sys2Proof

/-! ### What a refusing port does to its stream -/

/-- `End` leaves the source where it was (20_memory.md R52). -/
theorem srcRead_eoi_pos {src m : Source} (h : srcRead src = (some .eoi, m)) : m.pos = src.pos := by
  obtain ⟨-, -, ⟨hnone, -⟩ | ⟨b, hbyte, -⟩ | ⟨-, hpos⟩ | ⟨e, herr, -⟩⟩ := srcRead_cases src _ m h
  · simp at hnone
  · simp at hbyte
  · exact hpos
  · simp at herr

/-- Whatever an error does to the source, it does not move back (20_memory.md R51). -/
theorem srcRead_pos_le {src m : Source} {a : Option SourceAnswer} (h : srcRead src = (a, m)) : src.pos ≤ m.pos := by
  obtain ⟨-, -, ⟨-, hpos⟩ | ⟨b, -, -, hpos⟩ | ⟨-, hpos⟩ | ⟨e, -, hpos⟩⟩ := srcRead_cases src a m h <;> omega

/-- A refused byte is in the sink's stream or not, and nothing else is (20_memory.md R56). -/
theorem snkWrite_err_out {snk m : Sink} {b : Byte} {e : IoErr} (h : snkWrite snk b = (some (.err e), m)) :
    m.out = snk.out ∨ m.out = snk.out ++ [b] := by
  obtain ⟨-, ⟨hnone, -⟩ | ⟨hok, -⟩ | ⟨e', -, hout⟩⟩ := snkWrite_cases snk b _ m h
  · simp at hnone
  · simp at hok
  · exact hout

/-! ### What an encoder command answers -/

section write

variable {f : Fam} {op : Op} {s : State} {q : Request} {rest : List Request} {pre post : List Byte} {b : Byte}
  {m snk : Sink} {e : IoErr}

/-- `WRS` or `WRU` accepted by an idle block, with every answer of the sink to the byte after `pre`. -/
theorem writeOutcome_exec_enc (hop : op = .wrs ∨ op = .wru) (hrun : s.run = none) (hreqs : s.reqs = q :: rest)
    (hsplit : enc (Instr.of f op).fam (remOf (.of f op) q) = pre ++ b :: post) (haccept : acceptsTo s.snk pre = some m) :
    writeOutcome (waitingEncode (.of f op) s rest (remOf (.of f op) q) pre.length) s rest b post m
      (exec (.of f op) s) := by
  rw [exec_enc hop hrun hreqs]
  exact writeOutcome_encode s rest _ [] pre post b s.snk m hsplit haccept

/-- `WRR` accepted by an idle block, with every answer of the sink to the byte after `pre`. -/
theorem writeOutcome_exec_wrr (hrun : s.run = none) (hreqs : s.reqs = q :: rest)
    (hterm : ∃ g, g < f.N ∧ continues (repSlot q.opndRep g) = false)
    (hsplit : repBytes f q.opndRep = pre ++ b :: post) (haccept : acceptsTo s.snk pre = some m) :
    writeOutcome (waitingWrite (.of f .wrr) s rest (repOperand (Instr.of f .wrr).fam q) pre.length) s rest b post m
      (exec (.of f .wrr) s) := by
  rw [exec_wrr hrun hreqs hterm]
  have hbeats := writeOutcome_write (.of f .wrr) s q rest [] pre post b s.snk m (by rwa [fam_of])
    (by rwa [fam_of]) haccept
  rwa [fam_of] at hbeats ⊢

/-- `WRS` or `WRU` that meets a refusal of the sink: fewer than `N` bytes are written before it. -/
theorem exec_enc_ioError (hop : op = .wrs ∨ op = .wru) (hrun : s.run = none) (hreqs : s.reqs = q :: rest)
    (hsplit : enc (Instr.of f op).fam (remOf (.of f op) q) = pre ++ b :: post) (haccept : acceptsTo s.snk pre = some m)
    (hwrite : snkWrite m b = (some (.err e), snk)) :
    pre.length < f.N ∧ exec (.of f op) s = .next (ended s rest s.src snk (.fail (.ioError e))) := by
  obtain ⟨-, hlen, -⟩ := enc_split hsplit
  obtain ⟨-, herr, -⟩ := writeOutcome_exec_enc hop hrun hreqs hsplit haccept
  exact ⟨by rwa [fam_of] at hlen, herr e snk hwrite⟩

/-- `WRR` that meets a refusal of the sink: fewer than `N` bytes are written before it. -/
theorem exec_wrr_ioError (hrun : s.run = none) (hreqs : s.reqs = q :: rest)
    (hterm : ∃ g, g < f.N ∧ continues (repSlot q.opndRep g) = false)
    (hsplit : repBytes f q.opndRep = pre ++ b :: post) (haccept : acceptsTo s.snk pre = some m)
    (hwrite : snkWrite m b = (some (.err e), snk)) :
    pre.length < f.N ∧ exec (.of f .wrr) s = .next (ended s rest s.src snk (.fail (.ioError e))) := by
  obtain ⟨-, hlen, -⟩ := repBytes_split hterm hsplit
  obtain ⟨-, herr, -⟩ := writeOutcome_exec_wrr hrun hreqs hterm hsplit haccept
  exact ⟨hlen, herr e snk hwrite⟩

end write

/-- What `WRS` loads into `REM` (42_encoder.md R145), encoded. -/
theorem enc_remOf_wrs (f : Fam) (q : Request) :
    enc (Instr.of f .wrs).fam (remOf (.of f .wrs) q) = enc f (intOperand f q) := by
  cases f <;> rfl

/-- What `WRU` loads into `REM` (43_fused_unsigned.md R162), encoded. -/
theorem enc_remOf_wru (f : Fam) (q : Request) :
    enc (Instr.of f .wru).fam (remOf (.of f .wru) q) = enc f (zzd (intOperand f q)) := by
  cases f <;> rfl

/-- Settles O55: each failure is a clause of `readOutcome` or of `writeOutcome`, and the streams have moved by the bytes
before it and by what the refusing port did. -/
theorem failureAccounting : Obligations.FailureAccounting := by
  unfold Obligations.FailureAccounting
  intro f s q rest hrun hreqs
  constructor
  · intro op bs m hport hbs hlen hserve
    obtain ⟨hend, herr, hlong, -, -⟩ := readOutcome_exec hport hrun hreqs hbs hlen hserve
    obtain ⟨hpos, -⟩ := servesTo_pos_data hserve
    refine ⟨fun src hread => ⟨?_, hend src hread⟩, fun b src hread hfull => ⟨?_, hlong b src hread (by rwa [fam_of])⟩,
      fun e src hread => ⟨?_, herr e src hread⟩⟩
    · rw [srcRead_eoi_pos hread, hpos]
    · obtain ⟨-, hlast, -⟩ := srcRead_byte hread
      rw [hlast, hpos, hfull]
    · exact hpos ▸ srcRead_pos_le hread
  · intro op bytes pre post b m snk e hbytes hsplit haccept hwrite
    have hfail : pre.length < f.N ∧ exec (.of f op) s = .next (ended s rest s.src snk (.fail (.ioError e))) := by
      obtain ⟨rfl, rfl⟩ | ⟨rfl, rfl⟩ | ⟨rfl, hterm, rfl⟩ := hbytes
      · exact exec_enc_ioError (.inl rfl) hrun hreqs ((enc_remOf_wrs f q).trans hsplit) haccept hwrite
      · exact exec_enc_ioError (.inr rfl) hrun hreqs ((enc_remOf_wru f q).trans hsplit) haccept hwrite
      · exact exec_wrr_ioError hrun hreqs hterm hsplit haccept hwrite
    obtain ⟨hlen, hexec⟩ := hfail
    exact ⟨hlen, acceptsTo_out haccept ▸ snkWrite_err_out hwrite, hexec⟩

end Sys2Proof.Machine
end

section
/-! Proofs: decoding what the encoder produces (41_decoder.md R130). -/

namespace Sys2Proof.Machine

open Sys2Proof

/-! ### A terminated byte list, stored and read back -/

section stored

variable {f : Fam} {bs : List Byte} {b : Byte}

/-- The slots of a stored byte list, in order, are the list. -/
theorem map_repSlot_repResult_padded (hlen : bs.length ≤ f.N) :
    (List.range bs.length).map (repSlot (repResult f (padded bs))) = bs := by
  have hN := fam_N_le f
  refine List.ext_getElem (by simp) fun g _ hg => ?_
  rw [List.getElem_map, List.getElem_range, repSlot_repResult_padded hlen (by omega), List.getD_eq_getElem _ _ hg]

/-- The first terminator of a stored terminated list is its last byte (10_state.md R22). -/
theorem first_terminator_repResult_padded (hbs : ∀ x ∈ bs, continues x = true) (hb : continues b = false)
    (hlen : bs.length < f.N) :
    continues (repSlot (repResult f (padded (bs ++ [b]))) bs.length) = false ∧
      ∀ j, j < bs.length → continues (repSlot (repResult f (padded (bs ++ [b]))) j) = true := by
  have hN := fam_N_le f
  have hslot {g : Nat} (hg : g < 10) : repSlot (repResult f (padded (bs ++ [b]))) g = (bs ++ [b]).getD g 0x00#8 :=
    repSlot_repResult_padded (by simpa using hlen) hg
  refine ⟨?_, fun j hj => ?_⟩
  · rw [hslot (by omega)]
    simpa using hb
  · rw [hslot (by omega), List.getD_append _ _ _ _ hj, List.getD_eq_getElem _ _ hj]
    exact hbs _ (List.getElem_mem hj)

/-- `R2I` of a stored terminated list is the value of the list. -/
theorem exec_r2i_stored {s : State} {q : Request} {rest : List Request} (hrun : s.run = none)
    (hreqs : s.reqs = q :: rest) (hbs : ∀ x ∈ bs, continues x = true) (hb : continues b = false)
    (hlen : bs.length < f.N) (hrep : q.opndRep = repResult f (padded (bs ++ [b]))) :
    exec (.of f .r2i) s = .next (ended s rest s.src s.snk (.okInt (intResult f (assemble f.W (bs ++ [b]))))) := by
  obtain ⟨hterm, hcont⟩ := first_terminator_repResult_padded hbs hb hlen
  have hslots := map_repSlot_repResult_padded (f := f) (bs := bs ++ [b]) (by simpa using hlen)
  rw [List.length_append, List.length_singleton] at hslots
  rw [exec_r2i_terminator hrun hreqs hlen (hrep ▸ hterm) (hrep ▸ hcont), hrep, hslots]

end stored

/-! ### Reading an encoding -/

/-- `RDS` that is delivered `ENC_W(v)` returns `v` and consumes just that. -/
theorem exec_rds_enc {f : Fam} {v : BitVec f.W} {s : State} {q : Request} {rest : List Request} {m : Source}
    (hrun : s.run = none) (hreqs : s.reqs = q :: rest) (hserve : servesTo s.src (enc f v) = some m) :
    exec (.of f .rds) s = .next (ended s rest m s.snk (.okInt (intResult f v))) := by
  obtain ⟨bs, b, henc, hlen, hbs, hb⟩ := enc_terminated f v
  rw [henc] at hserve
  rw [exec_rds_accepted hrun hreqs hbs hb hlen hserve, ← henc, assemble_enc]

/-- `R2I` of the stored `ENC_W(v)` is `v`. -/
theorem exec_r2i_enc {f : Fam} {v : BitVec f.W} {s : State} {q : Request} {rest : List Request} (hrun : s.run = none)
    (hreqs : s.reqs = q :: rest) (hrep : q.opndRep = repResult f (padded (enc f v))) :
    exec (.of f .r2i) s = .next (ended s rest s.src s.snk (.okInt (intResult f v))) := by
  obtain ⟨bs, b, henc, hlen, hbs, hb⟩ := enc_terminated f v
  rw [exec_r2i_stored hrun hreqs hbs hb hlen (henc ▸ hrep), ← henc, assemble_enc]

/-- Settles O46: both readings assemble a terminated list, `ENC_W(v)`, whose value is `v`; the reference source serves its
bytes in order. -/
theorem decodeOfEncodeIsIdentity : Obligations.DecodeOfEncodeIsIdentity := by
  unfold Obligations.DecodeOfEncodeIsIdentity
  refine ⟨fun f v s q rest m => exec_rds_enc, fun f v tail src hsrc => ?_, fun f v s q q' rest hrun hreqs hv => ?_⟩
  · subst hsrc
    exact servesTo_referenceSource [] (enc f v) tail
  · subst hv
    exact ⟨_, exec_i2r hrun hreqs, fun hrep => exec_r2i_enc rfl rfl hrep⟩

end Sys2Proof.Machine
end

section
/-! Proofs: what a running command comes to, with every answer of its port (41_decoder.md R126, 42_encoder.md R149). -/

namespace Sys2Proof.Machine

open Sys2Proof

/-! ### The decoder: the answer that decides -/

/-- The source, asked for bytes until one has bit 7 clear or `n` are read, comes to an answer that decides. -/
theorem exists_deciding_read (src : Source) (n : Nat) :
    ∃ bs m, servesTo src bs = some m ∧ (∀ x ∈ bs, continues x = true) ∧ bs.length ≤ n ∧
      ∀ b, (srcRead m).1 = some (.byte b) → bs.length = n ∨ continues b = false := by
  induction n generalizing src with
  | zero => exact ⟨[], src, rfl, by simp, le_rfl, fun _ _ => .inl rfl⟩
  | succ n ih =>
    by_cases hgo : ∃ b, (srcRead src).1 = some (.byte b) ∧ continues b = true
    · obtain ⟨b, hread, hb⟩ := hgo
      obtain ⟨bs, m, hserve, hbs, hlen, hdecides⟩ := ih (srcRead src).2
      exact ⟨b :: bs, m, by rwa [servesTo, if_pos hread], by simpa [hb] using hbs, by simpa using hlen,
        by simpa using hdecides⟩
    · refine ⟨[], src, rfl, by simp, Nat.zero_le _, fun b hread => .inr ?_⟩
      simpa using fun hb => hgo ⟨b, hread, hb⟩

/-- The state to which the deciding answer of the source, after the bytes `bs`, takes a decoder command. -/
def readEnd (i : Instr) (finish : List Byte → Response) (s : State) (rest : List Request) (bs : List Byte) :
    Option SourceAnswer × Source → State
  | (none, src) => waitingRead i s rest bs src
  | (some .eoi, src) => ended s rest src s.snk (.fail .unexpectedEndOfInput)
  | (some (.err e), src) => ended s rest src s.snk (.fail (.ioError e))
  | (some (.byte b), src) =>
    ended s rest src s.snk (if bs.length = i.fam.N then .fail .encodingTooLong else finish (bs ++ [b]))

/-- The clauses of `readOutcome`, at an answer that decides. -/
theorem eq_readEnd_of_readOutcome {i : Instr} {finish : List Byte → Response} {s : State} {rest : List Request}
    {bs : List Byte} {m : Source} {o : Host.Outcome State Fault Refusal} (h : readOutcome i finish s rest bs m o)
    (hlen : bs.length ≤ i.fam.N)
    (hdecides : ∀ b, (srcRead m).1 = some (.byte b) → bs.length = i.fam.N ∨ continues b = false) :
    o = .next (readEnd i finish s rest bs (srcRead m)) := by
  obtain ⟨hend, herr, hlong, hterm, hwait⟩ := h
  match hread : srcRead m with
  | (none, src) => exact hwait src hread
  | (some .eoi, src) => exact hend src hread
  | (some (.err e), src) => exact herr e src hread
  | (some (.byte b), src) =>
    rw [readEnd]
    split
    next hfull => exact hlong b src hread hfull
    next hroom =>
      exact hterm b src hread (lt_of_le_of_ne hlen hroom) ((hdecides b (by rw [hread])).resolve_left hroom)

/-! ### Ports that answer every request -/

/-- Serving from the data does not touch the list of moves. -/
theorem srcServe_script (src : Source) : (srcServe src).2.script = src.script := by
  unfold srcServe
  split <;> rfl

/-- An attached source uses up one move per request, and is silent only where that move is a wait (20_memory.md R53). -/
theorem srcRead_attached {src : Source} (h : src.attached = true) :
    (srcRead src).2.script = src.script.tail ∧ ((srcRead src).1 = none → ∃ n, SourceMove.wait n ∈ src.script) := by
  unfold srcRead
  rw [if_pos h]
  split
  next hscript => simp [srcServe_script, hscript]
  next rest hscript => simp [srcServe_script, hscript]
  next n rest hscript => exact ⟨by simp [hscript], fun _ => ⟨n, by simp [hscript]⟩⟩
  next rest hscript => simp [hscript]
  next e lost rest hscript => simp [hscript]

/-- A source that answers every request goes on doing so. -/
theorem sourceAnswers_srcRead {src m : Source} {a : Option SourceAnswer} (h : sourceAnswers src)
    (hread : srcRead src = (a, m)) : a ≠ none ∧ sourceAnswers m := by
  obtain ⟨hatt, hscript⟩ := h
  obtain ⟨-, hatt', -⟩ := srcRead_cases src a m hread
  obtain ⟨htail, hsilent⟩ := srcRead_attached hatt
  rw [hread] at htail hsilent
  refine ⟨fun hnone => ?_, hatt'.trans hatt, fun n hn => hscript n (List.mem_of_mem_tail (htail ▸ hn))⟩
  obtain ⟨n, hn⟩ := hsilent hnone
  exact hscript n hn

theorem sourceAnswers_servesTo {src m : Source} {bs : List Byte} (h : sourceAnswers src)
    (hserve : servesTo src bs = some m) : sourceAnswers m := by
  induction bs generalizing src with
  | nil =>
    obtain rfl : src = m := by simpa [servesTo] using hserve
    exact h
  | cons b bs ih =>
    obtain ⟨mid, hread, hrest⟩ := servesTo_cons hserve
    exact ih (sourceAnswers_srcRead h hread).2 hrest

/-- A source with no moves left keeps none, and one request takes at most one byte from it. -/
theorem srcRead_empty_script {src : Source} (h : src.script = []) :
    (srcRead src).2.script = [] ∧ (srcRead src).2.pos ≤ src.pos + 1 := by
  unfold srcRead
  split
  · simp only [h, srcServe_script, true_and]
    unfold srcServe
    split <;> simp
  · simp [h]

theorem servesTo_empty_script {src m : Source} {bs : List Byte} (h : src.script = [])
    (hserve : servesTo src bs = some m) : m.script = [] := by
  induction bs generalizing src with
  | nil =>
    obtain rfl : src = m := by simpa [servesTo] using hserve
    exact h
  | cons b bs ih =>
    obtain ⟨mid, hread, hrest⟩ := servesTo_cons hserve
    obtain ⟨hscript, -⟩ := srcRead_empty_script h
    exact ih (by rwa [hread] at hscript) hrest

/-- An attached sink uses up one move per request, and is silent only where that move is a wait (20_memory.md R53). -/
theorem snkWrite_attached {snk : Sink} (h : snk.attached = true) (b : Byte) :
    (snkWrite snk b).2.script = snk.script.tail ∧ ((snkWrite snk b).1 = none → ∃ l, SinkMove.wait l ∈ snk.script) := by
  unfold snkWrite
  rw [if_pos h]
  split
  next hscript => simp [hscript]
  next rest hscript => simp [hscript]
  next l rest hscript => exact ⟨by simp [hscript], fun _ => ⟨l, by simp [hscript]⟩⟩
  next e taken rest hscript => simp [hscript]

/-- A sink that answers every request goes on doing so. -/
theorem sinkAnswers_snkWrite {snk m : Sink} {b : Byte} {a : Option SinkAnswer} (h : sinkAnswers snk)
    (hwrite : snkWrite snk b = (a, m)) : a ≠ none ∧ sinkAnswers m := by
  obtain ⟨hatt, hscript⟩ := h
  obtain ⟨hatt', -⟩ := snkWrite_cases snk b a m hwrite
  obtain ⟨htail, hsilent⟩ := snkWrite_attached hatt b
  rw [hwrite] at htail hsilent
  refine ⟨fun hnone => ?_, hatt'.trans hatt, fun l hl => hscript l (List.mem_of_mem_tail (htail ▸ hl))⟩
  obtain ⟨l, hl⟩ := hsilent hnone
  exact hscript l hl

/-- An answer of the sink appends at most the byte offered (20_memory.md R56). -/
theorem snkWrite_out {snk m : Sink} {b : Byte} {a : SinkAnswer} (h : snkWrite snk b = (some a, m)) :
    ∃ l, m.out = snk.out ++ l ∧ l.length ≤ 1 := by
  obtain ⟨-, ⟨hnone, -⟩ | ⟨-, hout⟩ | ⟨e, -, hout | hout⟩⟩ := snkWrite_cases snk b _ m h
  · simp at hnone
  · exact ⟨[b], hout, le_rfl⟩
  · exact ⟨[], by simpa using hout, by simp⟩
  · exact ⟨[b], hout, le_rfl⟩

/-! ### The encoder: offering one byte after the other -/

/-- A loop of beats that offers `byte n` from its `n`-th state `state n`, until an accepted byte is the last
(42_encoder.md R149). -/
structure OfferLoop (beat : State → Beat) (state : Nat → Sink → State) (s : State) (rest : List Request)
    (byte : Nat → Byte) (isLast : Nat → Prop) (bound : Nat) : Prop where
  wait : ∀ {n snk m}, n < bound → snkWrite snk (byte n) = (none, m) → beat (state n snk) = .wait (state n m)
  err : ∀ {n snk m e}, n < bound → snkWrite snk (byte n) = (some (.err e), m) →
    beat (state n snk) = .done (ended s rest s.src m (.fail (.ioError e)))
  last : ∀ {n snk m}, n < bound → snkWrite snk (byte n) = (some .ok, m) → isLast n →
    beat (state n snk) = .done (ended s rest s.src m .okNone)
  go : ∀ {n snk m}, n < bound → snkWrite snk (byte n) = (some .ok, m) → ¬ isLast n →
    beat (state n snk) = .go (state (n + 1) m)

/-- `WRS` and `WRU` offer the bytes of `ENC_W(v)`. -/
theorem offerLoop_encode (i : Instr) (s : State) (rest : List Request) (v : BitVec i.fam.W) :
    OfferLoop (encodeBeat i.fam) (waitingEncode i s rest v) s rest (fun n => encByte (v >>> (7 * n)))
      (fun n => nextRem (v >>> (7 * n)) = 0) i.fam.N where
  wait _ h := encodeBeat_none h
  err _ h := encodeBeat_err h
  last _ h hlast := encodeBeat_last h hlast
  go _ h hlast := encodeBeat_go h hlast

/-- `WRR` offers the slots of `BUF`. -/
theorem offerLoop_write (i : Instr) (s : State) (rest : List Request) (buf : Slots) :
    OfferLoop writeBeat (waitingWrite i s rest buf) s rest (slotGet buf) (fun n => continues (slotGet buf n) = false)
      i.fam.N where
  wait hn h := writeBeat_none (hn.trans_le (by have := fam_N_le i.fam; omega)) rfl h
  err hn h := writeBeat_err (hn.trans_le (by have := fam_N_le i.fam; omega)) rfl h
  last hn h hlast := writeBeat_last (hn.trans_le (by have := fam_N_le i.fam; omega)) rfl h hlast
  go hn h hlast := writeBeat_go (hn.trans_le (by have := fam_N_le i.fam; omega)) rfl h (by simpa using hlast)

/-- With its last byte at index `k`, the loop waits at a byte up to that one, which an answering sink rules out, or it
ends, with no value or an error of the sink, after at most the bytes up to that one. -/
theorem OfferLoop.outcome {beat : State → Beat} {state : Nat → Sink → State} {s : State} {rest : List Request}
    {byte : Nat → Byte} {isLast : Nat → Prop} {bound k : Nat}
    (loop : OfferLoop beat state s rest byte isLast bound) (hk : k < bound) (hlast : isLast k) {n fuel : Nat}
    (hn : n ≤ k) (hfuel : k < n + fuel) (snk : Sink) :
    (¬ sinkAnswers snk ∧ ∃ n' m, n' ≤ k ∧ runBeats beat fuel (state n snk) = state n' m) ∨
    ∃ m r, runBeats beat fuel (state n snk) = ended s rest s.src m r ∧ (r = .okNone ∨ ∃ e, r = .fail (.ioError e)) ∧
      ∃ l, m.out = snk.out ++ l ∧ l.length ≤ k + 1 - n := by
  induction fuel generalizing n snk with
  | zero => omega
  | succ fuel ih =>
    match hwrite : snkWrite snk (byte n) with
    | (none, m) =>
      refine .inl ⟨fun hans => (sinkAnswers_snkWrite hans hwrite).1 rfl, n, m, hn, ?_⟩
      exact runBeats_wait _ (loop.wait (by omega) hwrite)
    | (some (.err e), m) =>
      obtain ⟨l, hout, hl⟩ := snkWrite_out hwrite
      refine .inr ⟨m, _, runBeats_done _ (loop.err (by omega) hwrite), .inr ⟨e, rfl⟩, l, hout, by omega⟩
    | (some .ok, m) =>
      obtain ⟨l, hout, hl⟩ := snkWrite_out hwrite
      by_cases hstop : isLast n
      · exact .inr ⟨m, _, runBeats_done _ (loop.last (by omega) hwrite hstop), .inl rfl, l, hout, by omega⟩
      · have hne : n ≠ k := fun h => hstop (h ▸ hlast)
        rw [runBeats_go _ (loop.go (by omega) hwrite hstop)]
        obtain ⟨hans, hwait⟩ | ⟨m', r, hend, hr, l', hout', hl'⟩ := ih (n := n + 1) (by omega) (by omega) m
        · exact .inl ⟨fun h => hans (sinkAnswers_snkWrite h hwrite).2, hwait⟩
        · exact .inr ⟨m', r, hend, hr, l ++ l', by rw [hout', hout, List.append_assoc], by simp; omega⟩

end Sys2Proof.Machine
end

section
/-! Proofs: every step keeps the register discipline (10_state.md R28, R29). -/

namespace Sys2Proof.Machine

open Sys2Proof

/-- The ten operations by the loop they run (30_encoding.md R92, column "ports used"). -/
theorem op_port_cases (op : Op) :
    op.port = .none ∨ op.port = .source ∨ (op = .wrs ∨ op = .wru) ∨ op = .wrr := by
  cases op <;> simp [Op.port]

/-! ### The register discipline, by the kind of the running command -/

section regInv

variable {i : Instr} {s : State}

theorem regInv_idle (hrun : s.run = none) : RegInv s ↔ WorkZero s := by
  simp only [RegInv, hrun, WorkZero]

theorem regInv_source (hrun : s.run = some i) (hport : i.op.port = .source) : RegInv s ↔ DecodeInv i.fam s := by
  simp only [RegInv, hrun]
  cases hop : i.op <;> simp [hop, Op.port] at hport ⊢

theorem regInv_encode (hrun : s.run = some i) (hop : i.op = .wrs ∨ i.op = .wru) : RegInv s ↔ EncodeInv i.fam s := by
  simp only [RegInv, hrun]
  obtain hop | hop := hop <;> simp only [hop]

theorem regInv_wrr (hrun : s.run = some i) (hop : i.op = .wrr) : RegInv s ↔ WriteInv i.fam s := by
  simp only [RegInv, hrun, hop]

/-- A running command uses a port (92_eei_decisions.md D23). -/
theorem RegInv.port_ne_none (h : RegInv s) (hrun : s.run = some i) : i.op.port ≠ .none := by
  simp only [RegInv, hrun] at h
  cases hop : i.op <;> simp [hop, Op.port] at h ⊢

end regInv

/-! ### The states that meet it are the waiting ones -/

/-- A decoder command that waits meets the register discipline. -/
theorem regInv_waitingRead {i : Instr} (hport : i.op.port = .source) (s : State) (rest : List Request) {bs : List Byte}
    (src : Source) (hbs : ∀ x ∈ bs, continues x = true) (hlen : bs.length ≤ i.fam.N) :
    RegInv (waitingRead i s rest bs src) := by
  have hN := fam_N_le i.fam
  have hgidx : (waitingRead i s rest bs src).gidx.toNat = bs.length := waitingRead_gidx hlen
  have htake : (padded bs).toList.take bs.length = bs := take_padded bs (by omega)
  refine (regInv_source rfl hport).2 ⟨hgidx.trans_le hlen, rfl, ?_, ?_, ?_⟩ <;> rw [hgidx]
  · intro g hg
    change continues (slotGet (padded bs) g) = true
    rw [slotGet_padded, if_pos (by omega), List.getD_eq_getElem _ _ hg]
    exact hbs _ (List.getElem_mem hg)
  · exact congrArg padded htake.symm
  · exact congrArg (fun l => toReg i.fam (assemble i.fam.W l)) htake.symm

/-- A running decoder command that meets the register discipline waits after the bytes in its buffer. -/
theorem DecodeInv.eq_waitingRead {i : Instr} {s : State} (h : DecodeInv i.fam s) (hrun : s.run = some i) :
    ∃ bs, s = waitingRead i s s.reqs bs s.src ∧ (∀ x ∈ bs, continues x = true) ∧ bs.length ≤ i.fam.N := by
  have hN := fam_N_le i.fam
  obtain ⟨hgidx, hrem, hcont, hbuf, hacc⟩ := h
  have hlen : (s.buf.toList.take s.gidx.toNat).length = s.gidx.toNat := by simp; omega
  refine ⟨s.buf.toList.take s.gidx.toNat, ?_, fun x hx => ?_, hlen.trans_le hgidx⟩
  · have hnum : s.gidx = BitVec.ofNat 4 (s.buf.toList.take s.gidx.toNat).length := by rw [hlen]; simp
    cases s
    simp only [waitingRead, State.mk.injEq, and_true]
    exact ⟨hrun, hacc, hrem, hnum, hbuf⟩
  · obtain ⟨g, hg, rfl⟩ := List.getElem_of_mem hx
    have hslot := hcont g (hlen ▸ hg)
    rw [slotGet_of_lt _ (by omega)] at hslot
    simpa using hslot

/-- A register holds the number of the value written to it. -/
theorem toNat_toReg (f : Fam) (v : BitVec f.W) : (toReg f v).toNat = v.toNat := by
  rw [toReg, BitVec.toNat_setWidth]
  exact Nat.mod_eq_of_lt (v.isLt.trans_le (Nat.pow_le_pow_right (by decide) (fam_W_le f)))

/-- Every group index below `N` starts inside the integer. -/
theorem mul_seven_le_fam_W {f : Fam} {n : Nat} (hn : n < f.N) : 7 * n ≤ f.W := by
  cases f <;> simp only [Fam.N, Fam.W] at * <;> omega

/-- `WRS` or `WRU` that waits meets the register discipline. -/
theorem regInv_waitingEncode {i : Instr} (hop : i.op = .wrs ∨ i.op = .wru) (s : State) (rest : List Request)
    (v : BitVec i.fam.W) {n : Nat} (snk : Sink) (hn : n < i.fam.N) : RegInv (waitingEncode i s rest v n snk) := by
  have hN := fam_N_le i.fam
  have hgidx : (waitingEncode i s rest v n snk).gidx.toNat = n := by simp [waitingEncode]; omega
  refine (regInv_encode rfl hop).2 ⟨hgidx.trans_lt hn, rfl, rfl, ?_⟩
  change (toReg i.fam (v >>> (7 * n))).toNat < _
  rw [hgidx, toNat_toReg, BitVec.toNat_ushiftRight, Nat.shiftRight_eq_div_pow]
  apply Nat.div_lt_of_lt_mul
  rw [← Nat.pow_add]
  exact v.isLt.trans_le (Nat.pow_le_pow_right (by decide) (by omega))

/-- A running `WRS` or `WRU` that meets the register discipline waits at a byte of the encoding of some value. -/
theorem EncodeInv.eq_waitingEncode {i : Instr} {s : State} (h : EncodeInv i.fam s) (hrun : s.run = some i) :
    ∃ v, s = waitingEncode i s s.reqs v s.gidx.toNat s.snk := by
  obtain ⟨hgidx, hacc, hbuf, hrem⟩ := h
  have hbits := mul_seven_le_fam_W hgidx
  have hfit : s.rem.toNat * 2 ^ (7 * s.gidx.toNat) < 2 ^ i.fam.W := by
    calc s.rem.toNat * 2 ^ (7 * s.gidx.toNat)
        < 2 ^ (i.fam.W - 7 * s.gidx.toNat) * 2 ^ (7 * s.gidx.toNat) :=
          Nat.mul_lt_mul_of_pos_right hrem (Nat.two_pow_pos _)
      _ = 2 ^ i.fam.W := by rw [← Nat.pow_add, Nat.sub_add_cancel hbits]
  refine ⟨BitVec.ofNat i.fam.W (s.rem.toNat * 2 ^ (7 * s.gidx.toNat)), ?_⟩
  have hrem' : s.rem =
      toReg i.fam (BitVec.ofNat i.fam.W (s.rem.toNat * 2 ^ (7 * s.gidx.toNat)) >>> (7 * s.gidx.toNat)) := by
    apply BitVec.eq_of_toNat_eq
    rw [toNat_toReg, BitVec.toNat_ushiftRight, BitVec.toNat_ofNat, Nat.mod_eq_of_lt hfit, Nat.shiftRight_eq_div_pow,
      Nat.mul_div_cancel _ (Nat.two_pow_pos _)]
  cases s
  simp only [waitingEncode, State.mk.injEq, and_true]
  exact ⟨hrun, hacc, hrem', by simp, hbuf⟩

/-- A running `WRR` that meets the register discipline waits at a slot of its buffer. -/
theorem WriteInv.eq_waitingWrite {i : Instr} {s : State} (h : WriteInv i.fam s) (hrun : s.run = some i) :
    s = waitingWrite i s s.reqs s.buf s.gidx.toNat s.snk := by
  obtain ⟨hacc, hrem, -⟩ := h
  cases s
  simp only [waitingWrite, State.mk.injEq, and_true]
  exact ⟨hrun, hacc, hrem, by simp⟩

/-- `WRR` that waits, with its terminator still ahead, meets the register discipline. -/
theorem regInv_waitingWrite {i : Instr} (hop : i.op = .wrr) (s : State) (rest : List Request) {buf : Slots} {n k : Nat}
    (snk : Sink) (hn : n ≤ k) (hk : k < i.fam.N) (hterm : continues (slotGet buf k) = false)
    (hzero : ∀ g, i.fam.N ≤ g → slotGet buf g = 0) : RegInv (waitingWrite i s rest buf n snk) := by
  have hN := fam_N_le i.fam
  have hgidx : (waitingWrite i s rest buf n snk).gidx.toNat = n := waitingWrite_gidx (by omega)
  exact (regInv_wrr rfl hop).2 ⟨rfl, rfl, ⟨k, hgidx.trans_le hn, hk, hterm⟩, hzero⟩

/-! ### What a command comes to -/

/-- What a command that is presented to, or running in, a block in the register discipline comes to: it waits, in the
discipline, for a port that does not answer, or it ends with a response, after a bounded number of transfers. -/
def WaitsOrEnds (i : Instr) (s : State) (rest : List Request) (t : State) : Prop :=
  (RegInv t ∧ t.resps = s.resps ∧ (¬ sourceAnswers s.src ∨ ¬ sinkAnswers s.snk)) ∨
  ∃ src snk r, t = ended s rest src snk r ∧ (∀ p, r = .okRep p → repWF i.fam p = true) ∧
    (s.src.script = [] → src.pos ≤ s.src.pos + (i.fam.N + 1)) ∧
    ∃ l, snk.out = s.snk.out ++ l ∧ l.length ≤ i.fam.N

/-- A command that ends without a transfer. -/
theorem waitsOrEnds_ended {i : Instr} (s : State) (rest : List Request) {r : Response}
    (hrep : ∀ p, r = .okRep p → repWF i.fam p = true) : WaitsOrEnds i s rest (ended s rest s.src s.snk r) :=
  .inr ⟨s.src, s.snk, r, rfl, hrep, fun _ => by omega, [], by simp, by simp⟩

/-- A Representation value that a decoder command forms from an accepted list is well formed (10_state.md R23): only
`RDR` forms one. -/
theorem repWF_finishOf {i : Instr} {acc : BitVec i.fam.W} {bs : List Byte} {b : Byte} {p : RepField}
    (hbs : ∀ x ∈ bs, continues x = true) (hb : continues b = false) (hlen : bs.length < i.fam.N)
    (h : finishOf i acc (padded (bs ++ [b])) = .okRep p) : repWF i.fam p = true := by
  have hwf := repWF_repResult_padded hbs hb hlen
  cases i
  case rdr32 | rdr64 =>
    cases h
    exact hwf
  all_goals cases h

/-- A decoder command, from a wait after `pre`. -/
theorem waitsOrEnds_decode {i : Instr} (hport : i.op.port = .source) (s : State) (rest : List Request)
    {pre : List Byte} (hpre : ∀ x ∈ pre, continues x = true) (hlen : pre.length ≤ i.fam.N) :
    WaitsOrEnds i s rest
      (runBeats (decodeBeat i.fam (finishOf i)) (beatBound i.fam) (waitingRead i s rest pre s.src)) := by
  obtain ⟨bs, m, hserve, hbs, hroom, hdecides⟩ := exists_deciding_read s.src (i.fam.N - pre.length)
  have hall : ∀ x ∈ pre ++ bs, continues x = true := fun x hx => (List.mem_append.1 hx).elim (hpre x) (hbs x)
  have htotal : (pre ++ bs).length ≤ i.fam.N := by rw [List.length_append]; omega
  have hdec : ∀ b, (srcRead m).1 = some (.byte b) → (pre ++ bs).length = i.fam.N ∨ continues b = false :=
    fun b hb => (hdecides b hb).imp_left fun h => by rw [List.length_append]; omega
  have hout := eq_readEnd_of_readOutcome
    (readOutcome_runBeats (finishOf i) s rest pre bs s.src m hbs htotal hserve) htotal hdec
  rw [Host.Outcome.next.injEq] at hout
  rw [hout]
  have hpos : s.src.script = [] → (srcRead m).2.pos ≤ s.src.pos + (i.fam.N + 1) := fun hscript => by
    have hlast := (srcRead_empty_script (servesTo_empty_script hscript hserve)).2
    have hmoved := (servesTo_pos_data hserve).1
    omega
  have hnothing : ∃ l, s.snk.out = s.snk.out ++ l ∧ l.length ≤ i.fam.N := ⟨[], by simp, by simp⟩
  match hread : srcRead m with
  | (none, src) =>
    refine .inl ⟨regInv_waitingRead hport s rest src hall htotal, rfl, .inl fun hans => ?_⟩
    exact (sourceAnswers_srcRead (sourceAnswers_servesTo hans hserve) hread).1 rfl
  | (some .eoi, src) => exact .inr ⟨src, s.snk, _, rfl, by simp, by simpa [hread] using hpos, hnothing⟩
  | (some (.err e), src) => exact .inr ⟨src, s.snk, _, rfl, by simp, by simpa [hread] using hpos, hnothing⟩
  | (some (.byte b), src) =>
    refine .inr ⟨src, s.snk, _, rfl, fun p => ?_, by simpa [hread] using hpos, hnothing⟩
    split
    next => simp
    next hne => exact repWF_finishOf hall ((hdec b (by rw [hread])).resolve_left hne) (lt_of_le_of_ne htotal hne)

/-- An encoder command, from the byte at index `n`: every state in which its loop can wait meets the register
discipline. -/
theorem waitsOrEnds_offerLoop {i : Instr} {s : State} {rest : List Request} {beat : State → Beat}
    {state : Nat → Sink → State} {byte : Nat → Byte} {isLast : Nat → Prop} {k n : Nat}
    (loop : OfferLoop beat state s rest byte isLast i.fam.N) (hk : k < i.fam.N) (hlast : isLast k) (hn : n ≤ k)
    (hinv : ∀ {j snk}, j ≤ k → RegInv (state j snk) ∧ (state j snk).resps = s.resps) :
    WaitsOrEnds i s rest (runBeats beat (beatBound i.fam) (state n s.snk)) := by
  obtain ⟨hsilent, j, m, hj, hwait⟩ | ⟨m, r, hend, hr, l, hout, hl⟩ :=
    loop.outcome hk hlast hn (fuel := beatBound i.fam) (by simp only [beatBound]; omega) s.snk
  · rw [hwait]
    exact .inl ⟨(hinv hj).1, (hinv hj).2, .inr hsilent⟩
  · rw [hend]
    refine .inr ⟨s.src, m, r, rfl, fun p hp => ?_, fun _ => by omega, l, hout, by omega⟩
    obtain rfl | ⟨e, rfl⟩ := hr <;> simp at hp

/-- `WRS` and `WRU`, from the byte at index `n`. -/
theorem waitsOrEnds_encode {i : Instr} (hop : i.op = .wrs ∨ i.op = .wru) (s : State) (rest : List Request)
    (v : BitVec i.fam.W) {n : Nat} (hn : n < i.fam.N) :
    WaitsOrEnds i s rest (runBeats (encodeBeat i.fam) (beatBound i.fam) (waitingEncode i s rest v n s.snk)) :=
  waitsOrEnds_offerLoop (offerLoop_encode i s rest v) (k := i.fam.N - 1) (by omega)
    (nextRem_shift_last i.fam v _ (by omega)) (by omega)
    fun hj => ⟨regInv_waitingEncode hop s rest v _ (by omega), rfl⟩

/-- `WRR`, from slot `n`, with a terminator at or above it. -/
theorem waitsOrEnds_write {i : Instr} (hop : i.op = .wrr) (s : State) (rest : List Request) {buf : Slots} {n k : Nat}
    (hn : n ≤ k) (hk : k < i.fam.N) (hterm : continues (slotGet buf k) = false)
    (hzero : ∀ g, i.fam.N ≤ g → slotGet buf g = 0) :
    WaitsOrEnds i s rest (runBeats writeBeat (beatBound i.fam) (waitingWrite i s rest buf n s.snk)) :=
  waitsOrEnds_offerLoop (offerLoop_write i s rest buf) hk hterm hn
    fun hj => ⟨regInv_waitingWrite hop s rest _ hj hk hterm hzero, rfl⟩

/-- A command that runs in the register discipline. -/
theorem exec_running_waitsOrEnds {i : Instr} {s : State} (hinv : RegInv s) (hrun : s.run = some i) :
    ∃ t, exec i s = .next t ∧ WaitsOrEnds i s s.reqs t := by
  obtain hnone | hsrc | hop | hop := op_port_cases i.op
  · exact absurd hnone (hinv.port_ne_none hrun)
  · obtain ⟨bs, hs, hbs, hlen⟩ := ((regInv_source hrun hsrc).1 hinv).eq_waitingRead hrun
    have hexec := exec_resume hsrc s s.reqs bs s.src
    rw [← hs] at hexec
    exact ⟨_, hexec, hs ▸ waitsOrEnds_decode hsrc s s.reqs hbs hlen⟩
  · have henc := (regInv_encode hrun hop).1 hinv
    obtain ⟨v, hs⟩ := henc.eq_waitingEncode hrun
    have hexec := exec_enc_resume hop s s.reqs v s.gidx.toNat s.snk
    have hends := waitsOrEnds_encode hop s s.reqs v henc.1
    rw [← hs] at hexec hends
    exact ⟨_, hexec, hends⟩
  · have hwrr := (regInv_wrr hrun hop).1 hinv
    have hs := hwrr.eq_waitingWrite hrun
    obtain ⟨-, -, ⟨k, hn, hk, hterm⟩, hzero⟩ := hwrr
    have hexec := exec_wrr_resume (f := i.fam) (s := s) (buf := s.buf) (rest := s.reqs) (n := s.gidx.toNat)
      (snk := s.snk)
    have hends := waitsOrEnds_write hop s s.reqs hn hk hterm hzero
    rw [← hop, of_fam_op, ← hs] at hexec
    rw [← hs] at hends
    exact ⟨_, hexec, hends⟩

/-- A command presented to an idle block. -/
theorem exec_presented_waitsOrEnds {i : Instr} {s : State} {q : Request} {rest : List Request} (hrun : s.run = none)
    (hreqs : s.reqs = q :: rest)
    (hrep : i.op.operand = .rep → ∃ g, g < i.fam.N ∧ continues (repSlot q.opndRep g) = false) :
    ∃ t, exec i s = .next t ∧ WaitsOrEnds i s rest t := by
  obtain ⟨f, op, rfl⟩ : ∃ f op, i = Instr.of f op := ⟨_, _, (of_fam_op i).symm⟩
  cases op
  case zze | zzd =>
    refine ⟨_, exec_map_idle (by cases f <;> rfl) hrun hreqs, waitsOrEnds_ended s rest fun p hp => ?_⟩
    cases f <;> simp [valueOf, Instr.of, Instr.op] at hp
  case rds | rdr | rdu =>
    exact ⟨_, exec_read rfl hrun hreqs, waitsOrEnds_decode (by rw [op_of]; rfl) s rest (by simp) (by simp)⟩
  case wrs | wru =>
    exact ⟨_, exec_enc (by simp) hrun hreqs, waitsOrEnds_encode (by simp) s rest _ (fam_N_pos _)⟩
  case wrr =>
    rw [op_of, fam_of] at hrep
    obtain ⟨k, hk, hterm⟩ := hrep rfl
    refine ⟨_, exec_wrr hrun hreqs ⟨k, hk, hterm⟩, waitsOrEnds_write (op_of ..) s rest (Nat.zero_le k) (by rwa [fam_of])
      ?_ fun g hg => ?_⟩
    · rwa [slotGet_repOperand, if_pos hk]
    · rw [fam_of] at hg
      rw [slotGet_repOperand, if_neg (by omega)]
  case r2i =>
    rw [op_of, fam_of] at hrep
    obtain ⟨k, hk, hterm, hcont⟩ := exists_first_terminator (hrep rfl)
    exact ⟨_, exec_r2i_terminator hrun hreqs hk hterm hcont, waitsOrEnds_ended s rest (by simp)⟩
  case i2r =>
    refine ⟨_, exec_i2r hrun hreqs, waitsOrEnds_ended s rest fun p hp => ?_⟩
    obtain ⟨bs, b, henc, hlen, hbs, hb⟩ := enc_terminated f (intOperand f q)
    rw [Response.okRep.injEq] at hp
    rw [fam_of, ← hp, henc]
    exact repWF_repResult_padded hbs hb hlen

/-! ### The obligations -/

/-- Executing a command leaves the state as it is, or the command was presented, with what it needs, or running. -/
theorem exec_idle_or_runs {i : Instr} {s t : State} (h : exec i s = .next t) :
    t = s ∨ s.run = some i ∨ ∃ q rest, s.run = none ∧ s.reqs = q :: rest ∧
      (i.op.operand = .rep → ∃ g, g < i.fam.N ∧ continues (repSlot q.opndRep g) = false) := by
  obtain ⟨hsame, -⟩ | ⟨⟨hrun, q, rest, hreqs, -⟩ | ⟨hrun, -⟩, -⟩ := exec_spec h
  · exact .inl hsame
  · refine .inr (.inr ⟨q, rest, hrun, hreqs, fun hrep => ?_⟩)
    by_contra hnone
    have hop : i.op = .r2i ∨ i.op = .wrr := by
      revert hrep
      cases i.op <;> simp [Op.operand]
    simp [exec_noTerminator hop hrun hreqs (by simpa using hnone)] at h
  · exact .inr (.inl hrun)

/-- What executing a command comes to in the register discipline, when it does anything at all. -/
theorem exec_waitsOrEnds {i : Instr} {s : State} (hinv : RegInv s)
    (hruns : s.run = some i ∨ ∃ q rest, s.run = none ∧ s.reqs = q :: rest ∧
      (i.op.operand = .rep → ∃ g, g < i.fam.N ∧ continues (repSlot q.opndRep g) = false)) :
    ∃ t, exec i s = .next t ∧ WaitsOrEnds i s (if s.run = none then s.reqs.tail else s.reqs) t := by
  obtain hrun | ⟨q, rest, hrun, hreqs, hrep⟩ := hruns
  · simpa [hrun] using exec_running_waitsOrEnds hinv hrun
  · simpa [hrun, hreqs] using exec_presented_waitsOrEnds hrun hreqs hrep

theorem exec_keeps_regInv {i : Instr} {s t : State} (hinv : RegInv s) (h : exec i s = .next t) : RegInv t := by
  obtain rfl | hruns := exec_idle_or_runs h
  · exact hinv
  · obtain ⟨t', ht', ⟨hkeep, -⟩ | ⟨src, snk, r, rfl, -⟩⟩ := exec_waitsOrEnds hinv hruns <;>
      obtain rfl := Host.Outcome.next.inj (h.symm.trans ht')
    · exact hkeep
    · exact (regInv_idle rfl).2 (workZero_ended ..)

/-- Settles O10: a reset and an idle step leave an idle block, and a command waits in the discipline or ends. -/
theorem stepKeepsRegisterDiscipline : Obligations.StepKeepsRegisterDiscipline := by
  unfold Obligations.StepKeepsRegisterDiscipline
  intro s t hinv hstep
  obtain ⟨rest, -, rfl⟩ | ⟨i, -, hexec⟩ | ⟨-, -, rfl⟩ := step_cases hstep
  · exact (regInv_idle rfl).2 (workZero_resetBlock _)
  · exact exec_keeps_regInv (s := { s with resetIn := s.resetIn.tail }) hinv hexec
  · exact hinv

/-- Settles O58: with both ports answering, a command that does anything cannot wait. -/
theorem commandsTerminate : Obligations.CommandsTerminate := by
  unfold Obligations.CommandsTerminate
  intro i s hinv hsrc hsnk hruns
  obtain ⟨t, hexec, ⟨-, -, hsilent⟩ | ⟨src, snk, r, rfl, -, hread, hwritten⟩⟩ := exec_waitsOrEnds hinv hruns
  · exact absurd hsilent (by simp [hsrc, hsnk])
  · exact ⟨r, src, snk, hexec, hread, hwritten⟩

/-- Settles O60: a command that answers has ended, and what it has formed from its buffer is well formed. -/
theorem representationsAreWellFormed : Obligations.RepresentationsAreWellFormed := by
  unfold Obligations.RepresentationsAreWellFormed
  refine ⟨fun f => by cases f <;> decide, fun i s t p hinv hexec hresp => ?_⟩
  obtain rfl | hruns := exec_idle_or_runs hexec
  · simp at hresp
  · obtain ⟨t', ht', ⟨-, hsame, -⟩ | ⟨src, snk, r, rfl, hwf, -⟩⟩ := exec_waitsOrEnds hinv hruns <;>
      obtain rfl := Host.Outcome.next.inj (hexec.symm.trans ht')
    · simp [hsame] at hresp
    · exact hwf p (by simpa using hresp)

end Sys2Proof.Machine
end

section
/-! Proofs: the decoder and the encoder of the command word (30_encoding.md R91, R92). -/

namespace Sys2Proof.Machine

open Sys2Proof

/-! ### The fields of a command word -/

/-- A word is made of its three fields (R91). -/
theorem eq_append_fields (w : Byte) (hzero : zeroField w = 0) : w = 0#3 ++ famBit (famField w) ++ opField w := by
  revert hzero
  revert w
  decide

/-- An operation code selects at most the operation that has it (R92). -/
theorem opCode_of_opOfCode {c : BitVec 4} {op : Op} (h : opOfCode c = some op) : c = opCode op := by
  revert c
  cases op <;> decide

theorem encode_of (f : Fam) (op : Op) : encode (.of f op) = 0#3 ++ famBit f ++ opCode op := by
  rw [encode, fam_of, op_of]

/-- Decoding undoes encoding (R91, R92). -/
theorem decode_encode (i : Instr) : decode (encode i) = .instr i := by
  cases i <;> decide

/-- A word that decodes to a command is its encoding: no bit of it is ignored. -/
theorem encode_of_decode {w : Byte} {i : Instr} (h : decode w = .instr i) : w = encode i := by
  unfold decode at h
  split at h
  next hzero =>
    split at h
    next op hop =>
      obtain rfl : Instr.of (famField w) op = i := by simpa using h
      rw [encode_of, ← opCode_of_opOfCode hop, ← eq_append_fields w hzero]
    next => simp at h
  next => simp at h

/-! ### The obligations -/

/-- Settles O1, by evaluation of the decoder on the twenty words. -/
theorem commandWordTable : Obligations.CommandWordTable := by
  unfold Obligations.CommandWordTable
  decide

/-- Settles O2: `decode_encode` and its converse. -/
theorem decodeMatchesAllEightBits : Obligations.DecodeMatchesAllEightBits := by
  unfold Obligations.DecodeMatchesAllEightBits
  exact fun w i => ⟨encode_of_decode, fun h => h ▸ decode_encode i⟩

end Sys2Proof.Machine
end

section
/-! Proofs: a step, by the reset input and by what the block does (10_state.md R30, 70_reset_and_hazards.md R200). -/

namespace Sys2Proof.Machine

open Sys2Proof

/-- A running command goes on (20_memory.md R53). -/
theorem step_running {s : State} {i : Instr} (hreset : s.resetIn.head? ≠ some true) (hrun : s.run = some i) :
    step s = exec i { s with resetIn := s.resetIn.tail } := by
  simp [step_low hreset, stepCommand, hrun]

/-- An idle block with nothing presented uses up a level of the reset input (log entry 9). -/
theorem step_nothing_presented {s : State} (hreset : s.resetIn.head? ≠ some true) (hrun : s.run = none)
    (hreqs : s.reqs = []) : step s = .next { s with resetIn := s.resetIn.tail } := by
  simp [step_low hreset, stepCommand, hrun, hreqs]

/-- An idle block at its reset values is left by `clearWork` as it is. -/
theorem clearWork_of_idle {s : State} (hrun : s.run = none) (h : WorkZero s) : clearWork s = s := by
  obtain ⟨hacc, hrem, hgidx, hbuf⟩ := h
  cases s
  simp only [clearWork, State.mk.injEq, and_true]
  exact ⟨hrun.symm, hacc.symm, hrem.symm, hgidx.symm, hbuf.symm⟩

/-- Settles O4: the three cases of a step with the reset input low. -/
theorem stepRunsTheCommand : Obligations.StepRunsTheCommand := by
  unfold Obligations.StepRunsTheCommand
  exact fun s hreset => ⟨fun i q rest hrun hreqs hdecode => step_presented hreset hrun hreqs hdecode,
    fun i hrun => step_running hreset hrun, step_nothing_presented hreset⟩

/-- Settles O5: the word stands first in the presented list of an idle block, and it is the encoding of the command. -/
theorem fetchWordIsRunNext : Obligations.FetchWordIsRunNext := by
  unfold Obligations.FetchWordIsRunNext
  intro s w i hdecode
  have hword := encode_of_decode hdecode
  have hlow : (s.withFetchWord 8 w).resetIn.head? ≠ some true := by simp [State.withFetchWord]
  refine ⟨rfl, congrArg some hword, fun q rest hreqs => ?_, rfl, rfl, rfl, step_presented hlow rfl rfl hdecode⟩
  simp only [State.withFetchWord, hreqs, ← hword]
  rfl

/-- Settles O6, by the reset of the block field by field. -/
theorem resetAbortsWithoutResponse : Obligations.ResetAbortsWithoutResponse := by
  unfold Obligations.ResetAbortsWithoutResponse
  exact fun s rest hreset => step_reset hreset

/-- Settles O7: an idle block in the register discipline holds the values that reset gives it. -/
theorem resetWhileIdleChangesNothing : Obligations.ResetWhileIdleChangesNothing := by
  unfold Obligations.ResetWhileIdleChangesNothing
  intro s rest hinv hrun hreset
  rw [step_reset hreset, resetBlock, clearWork_of_idle (s := { s with resetIn := rest }) hrun (hinv.workZero hrun)]

/-- Settles O9: `State.reset` is idle at its reset values. -/
theorem resetMeetsRegisterDiscipline : Obligations.ResetMeetsRegisterDiscipline := by
  unfold Obligations.ResetMeetsRegisterDiscipline
  exact (regInv_idle rfl).2 workZero_reset

end Sys2Proof.Machine
end

section
/-! Proofs: what a command leaves as it is (10_state.md R30, 20_memory.md R50 to R56, 60_exceptions.md R172 to R178). -/

namespace Sys2Proof.Machine

open Sys2Proof

/-! ### Commands held while one runs -/

/-- Executing a command while another runs leaves the state as it is (log entry 10). -/
theorem exec_held {i j : Instr} {s : State} (hrun : s.run = some i) (hne : j ≠ i) : exec j s = .next s := by
  rw [exec_eq]
  split
  · simp [mapCommand, hrun]
  · simp [runCommand, hrun, hne.symm]

/-- The presented commands after a command: an idle block takes the first, any other state keeps them all. -/
theorem exec_reqs {i : Instr} {s t : State} (h : exec i s = .next t) :
    t.reqs = if s.run = none then s.reqs.tail else s.reqs := by
  obtain ⟨rfl, hreqs, -⟩ | ⟨⟨hrun, q, rest, hreqs, htaken⟩ | ⟨hrun, hkept⟩, -⟩ := exec_spec h
  · split
    next hrun => simp [hreqs hrun]
    next => rfl
  · simp [hrun, hreqs, htaken]
  · simp [hrun, hkept]

/-- Settles O12: `exec_held` and `exec_reqs`; a reset keeps what is presented. -/
theorem commandsAreHeldWhileOneRuns : Obligations.CommandsAreHeldWhileOneRuns := by
  unfold Obligations.CommandsAreHeldWhileOneRuns
  refine ⟨fun i j s => exec_held, fun i s t hrun hstep => ?_, fun i s t q rest hrun hreqs hexec => ?_⟩
  · obtain ⟨rest, -, rfl⟩ | ⟨j, -, hexec⟩ | ⟨-, -, rfl⟩ := step_cases hstep
    · rfl
    · simpa [hrun] using exec_reqs hexec
    · rfl
  · simpa [hrun, hreqs] using exec_reqs hexec

/-! ### The streams and the responses -/

/-- What a command does to the streams. -/
theorem exec_streams {i : Instr} {s t : State} (h : exec i s = .next t) :
    (i.op.port ≠ .source → t.src = s.src) ∧ (i.op.port ≠ .sink → t.snk = s.snk) ∧
      t.src.data = s.src.data ∧ s.src.pos ≤ t.src.pos ∧ ∃ l, t.snk.out = s.snk.out ++ l := by
  obtain ⟨rfl, -⟩ | ⟨-, ⟨hsrc, hsnk, hdata, hpos, hout, -⟩, -⟩ := exec_spec h
  · exact ⟨fun _ => rfl, fun _ => rfl, rfl, le_rfl, [], by simp⟩
  · exact ⟨hsrc, hsnk, hdata, hpos, hout⟩

/-- A command delivers no response, or one of its own, with which it has ended. -/
theorem exec_response {i : Instr} {s t : State} (h : exec i s = .next t) :
    t.resps = s.resps ∨ ∃ r, t = ended s t.reqs t.src t.snk r ∧ allowed i r := by
  obtain ⟨rfl, -⟩ | ⟨-, -, ⟨-, hsame⟩ | hended⟩ := exec_spec h
  · exact .inl rfl
  · exact .inl hsame
  · exact .inr hended

/-- A command that has delivered the response `r`. -/
theorem exec_delivers {i : Instr} {s t : State} {r : Response} (h : exec i s = .next t)
    (hresp : t.resps = s.resps ++ [r]) : t = ended s t.reqs t.src t.snk r ∧ allowed i r := by
  obtain hsame | ⟨r', hended, hallowed⟩ := exec_response h
  · simp [hsame] at hresp
  · obtain rfl : r' = r := by
      rw [hended] at hresp
      simpa using hresp
    exact ⟨hended, hallowed⟩

/-- Settles O52: two clauses of `exec_streams`. -/
theorem onlyTheNamedPortIsUsed : Obligations.OnlyTheNamedPortIsUsed := by
  unfold Obligations.OnlyTheNamedPortIsUsed
  intro i s t hexec
  obtain ⟨hsrc, hsnk, -⟩ := exec_streams hexec
  exact ⟨hsrc, hsnk⟩

/-- Settles O53: only a command touches the streams or responds. -/
theorem stepsOnlyAppend : Obligations.StepsOnlyAppend := by
  unfold Obligations.StepsOnlyAppend
  intro s t hstep
  obtain ⟨rest, -, rfl⟩ | ⟨i, -, hexec⟩ | ⟨-, -, rfl⟩ := step_cases hstep
  · exact ⟨rfl, le_rfl, ⟨[], by simp⟩, .inl rfl⟩
  · obtain ⟨-, -, hdata, hpos, hout⟩ := exec_streams hexec
    refine ⟨hdata, hpos, hout, (exec_response hexec).imp_right ?_⟩
    rintro ⟨r, hended, -⟩
    rw [hended]
    exact ⟨r, rfl, rfl⟩
  · exact ⟨rfl, le_rfl, ⟨[], by simp⟩, .inl rfl⟩

/-- Settles O54: the state of `exec_delivers`, with the frame of `exec_streams` and `exec_reqs`. -/
theorem failureEntry : Obligations.FailureEntry := by
  unfold Obligations.FailureEntry
  intro i s t k hexec hresp
  obtain ⟨hended, -⟩ := exec_delivers hexec hresp
  obtain ⟨-, -, hdata, hpos, hout⟩ := exec_streams hexec
  refine ⟨hended, ?_, hdata, hpos, hout, rfl, rfl⟩
  rw [exec_reqs hexec]
  split
  · exact .inr rfl
  · exact .inl rfl

/-- Settles O56: the responses that `allowed` gives a command. -/
theorem failuresByCommand : Obligations.FailuresByCommand := by
  unfold Obligations.FailuresByCommand
  intro i s t r hexec hresp
  obtain ⟨-, hallowed⟩ := exec_delivers hexec hresp
  refine ⟨?_, ?_, ?_, ?_, ?_, ?_⟩
  · rintro rfl
    exact hallowed
  · rintro rfl
    exact hallowed
  · rintro ⟨e, rfl⟩
    exact hallowed
  · rintro rfl
    exact hallowed
  · rintro ⟨v, rfl⟩
    exact hallowed.1
  · rintro ⟨p, rfl⟩
    exact hallowed.1

end Sys2Proof.Machine
end

section
/-! Proofs: the result fields of the host interface (10_state.md R31). -/

namespace Sys2Proof.Machine

open Sys2Proof

/-- Settles O16: the slots of `res_rep` and of the loaded `BUF`. -/
theorem representationFieldCarriesSlots : Obligations.RepresentationFieldCarriesSlots := by
  unfold Obligations.RepresentationFieldCarriesSlots
  exact ⟨repSlot_repResult, fun f q g _ => slotGet_repOperand f q g⟩

theorem repSlot_zero (g : Nat) : repSlot 0 g = 0 := by
  simp [repSlot]

/-- Bits 63:32 of the result of a family-32 command are zero (10_state.md R31). -/
theorem extractLsb'_intResult_f32 {f : Fam} (hf : f = .f32) (v : BitVec f.W) :
    (intResult f v).extractLsb' 32 32 = 0 := by
  subst hf
  apply BitVec.eq_of_getLsbD_eq
  intro k hk
  simp [intResult, hk]

/-- Settles O15: an integer or a Representation result is formed by `intResult` or `repResult`, and the fields that a
response does not carry are zero by definition. -/
theorem resultFieldsUnusedPartsAreZero : Obligations.ResultFieldsUnusedPartsAreZero := by
  unfold Obligations.ResultFieldsUnusedPartsAreZero
  intro i s t r hexec hresp
  obtain ⟨-, hallowed⟩ := exec_delivers hexec hresp
  have hint : (0 : Word).extractLsb' 32 32 = 0 := by decide
  have hzero : ∀ g, 5 ≤ g → g < 10 → repSlot 0 g = 0x00#8 := fun g _ _ => repSlot_zero g
  match r, hallowed with
  | .okNone, _ => exact ⟨fun _ => ⟨hint, hzero⟩, fun _ => rfl, fun _ => rfl, fun _ => ⟨rfl, rfl⟩⟩
  | .fail k, _ => exact ⟨fun _ => ⟨hint, hzero⟩, fun _ => rfl, fun _ => rfl, fun _ => ⟨rfl, rfl⟩⟩
  | .okInt _, ⟨hkind, v, rfl⟩ =>
    exact ⟨fun hf => ⟨extractLsb'_intResult_f32 hf v, hzero⟩, fun hne => absurd hkind hne, fun _ => rfl,
      fun hstatus => absurd rfl hstatus⟩
  | .okRep _, ⟨hkind, buf, rfl⟩ =>
    refine ⟨fun hf => ⟨hint, fun g hg hg' => ?_⟩, fun _ => rfl, fun hne => absurd hkind hne,
      fun hstatus => absurd rfl hstatus⟩
    have hN : ¬ g < i.fam.N := by
      rw [hf]
      exact Nat.not_lt.2 hg
    exact (repSlot_repResult i.fam buf g hg').trans (if_neg hN)

end Sys2Proof.Machine
end

section
/-! Proofs: what is presented, and how much of it a command reads (20_memory.md R69, 30_encoding.md R93). -/

namespace Sys2Proof.Machine

open Sys2Proof

/-! ### A running command reads nothing that is presented -/

/-- The state with other commands presented. -/
def present (reqs : List Request) (s : State) : State := { s with reqs := reqs }

/-- A beat with its state changed. -/
def Beat.map (g : State → State) : Beat → Beat
  | .go s => .go (g s)
  | .wait s => .wait (g s)
  | .done s => .done (g s)

/-- What every beat lets through, a run of beats lets through. -/
theorem runBeats_map {beat : State → Beat} {g : State → State} (h : ∀ s, beat (g s) = (beat s).map g) (n : Nat)
    (s : State) : runBeats beat n (g s) = g (runBeats beat n s) := by
  induction n generalizing s with
  | zero => rfl
  | succ n ih =>
    have hbeat := h s
    match hs : beat s with
    | .go s' =>
      rw [hs] at hbeat
      rw [runBeats_go _ hbeat, runBeats_go _ hs, ih]
    | .wait s' =>
      rw [hs] at hbeat
      rw [runBeats_wait _ hbeat, runBeats_wait _ hs]
    | .done s' =>
      rw [hs] at hbeat
      rw [runBeats_done _ hbeat, runBeats_done _ hs]

section present

variable (f : Fam) (reqs : List Request) (s : State)

theorem decodeBeat_present (finish : BitVec f.W → Slots → Response) :
    decodeBeat f finish (present reqs s) = (decodeBeat f finish s).map (present reqs) := by
  simp only [decodeBeat, present]
  split
  · rfl
  · rfl
  · rfl
  · simp only [apply_ite (Beat.map (present reqs))]
    rfl

theorem encodeBeat_present : encodeBeat f (present reqs s) = (encodeBeat f s).map (present reqs) := by
  simp only [encodeBeat, present]
  split
  · rfl
  · rfl
  · rw [apply_ite (Beat.map (present reqs))]
    rfl

theorem writeBeat_present : writeBeat (present reqs s) = (writeBeat s).map (present reqs) := by
  simp only [writeBeat, present]
  split
  · rfl
  · rfl
  · rw [apply_ite (Beat.map (present reqs))]
    rfl

theorem foldStep_present : foldStep f (present reqs s) = (foldStep f s).map (present reqs) := by
  simp only [foldStep, present, apply_ite (Beat.map (present reqs))]
  rfl

theorem fillStep_present : fillStep f (present reqs s) = (fillStep f s).map (present reqs) := by
  simp only [fillStep, present, apply_ite (Beat.map (present reqs))]
  rfl

theorem beatOf_present (i : Instr) : beatOf i (present reqs s) = (beatOf i s).map (present reqs) := by
  cases i
  case rds32 | rdr32 | rdu32 | rds64 | rdr64 | rdu64 => exact decodeBeat_present ..
  case wrs32 | wru32 | wrs64 | wru64 => exact encodeBeat_present ..
  case wrr32 | wrr64 => exact writeBeat_present ..
  case r2i32 | r2i64 => exact foldStep_present ..
  all_goals exact fillStep_present ..

end present

/-- Settles O13: no beat reads what is presented, so a run of beats carries it along. -/
theorem operandsAreSampledAtAcceptance : Obligations.OperandsAreSampledAtAcceptance := by
  unfold Obligations.OperandsAreSampledAtAcceptance
  intro i s t reqs hrun hexec
  have hrun' : (present reqs s).run = some i := hrun
  change exec i (present reqs s) = .next (present reqs t)
  cases hmap : isMap i
  · rw [exec_run hmap, runCommand_running hrun] at hexec
    rw [exec_run hmap, runCommand_running hrun', runBeats_map (beatOf_present reqs · i), Host.Outcome.next.inj hexec]
  · rw [exec_map hmap, mapCommand, hrun] at hexec
    rw [exec_map hmap, mapCommand, hrun', Host.Outcome.next.inj hexec]

/-! ### The operand parts that a command reads -/

/-- Two presentations agree on the operand part that the row of a command names (30_encoding.md R93). -/
def SameOperand (i : Instr) (q₁ q₂ : Request) : Prop :=
  (i.op.operand = .int → intOperand i.fam q₁ = intOperand i.fam q₂) ∧
  (i.op.operand = .rep → ∀ g, g < i.fam.N → repSlot q₁.opndRep g = repSlot q₂.opndRep g)

theorem hasTerminator_congr {f : Fam} {r₁ r₂ : RepField} (h : ∀ g, g < f.N → repSlot r₁ g = repSlot r₂ g) :
    hasTerminator f r₁ = hasTerminator f r₂ := by
  rw [Bool.eq_iff_iff, hasTerminator_iff, hasTerminator_iff]
  exact exists_congr fun g => and_congr_right fun hg => by rw [h g hg]

theorem repOperand_congr {f : Fam} {q₁ q₂ : Request} (h : ∀ g, g < f.N → repSlot q₁.opndRep g = repSlot q₂.opndRep g) :
    repOperand f q₁ = repOperand f q₂ := slots_ext fun g _ => by
  rw [slotGet_repOperand, slotGet_repOperand]
  split
  next hg => exact h g hg
  next => rfl

section sameOperand

variable {i : Instr} {q₁ q₂ : Request}

theorem SameOperand.checkOf_eq (h : SameOperand i q₁ q₂) : checkOf i q₁ = checkOf i q₂ := by
  have hterm : i.op.operand = .rep → checkTerminator i q₁ = checkTerminator i q₂ := fun hrep => by
    rw [checkTerminator, checkTerminator, hasTerminator_congr (h.2 hrep)]
  cases i
  case r2i32 | r2i64 | wrr32 | wrr64 => exact hterm rfl
  all_goals rfl

theorem SameOperand.loadOf_eq (h : SameOperand i q₁ q₂) : loadOf i q₁ = loadOf i q₂ := by
  have hbuf : i.op.operand = .rep → loadBuf i.fam q₁ = loadBuf i.fam q₂ := fun hrep => by
    funext s
    rw [loadBuf, loadBuf, repOperand_congr (h.2 hrep)]
  have hrem : i.op.operand = .int → loadRem i.fam (remOf i) q₁ = loadRem i.fam (remOf i) q₂ := fun hint => by
    funext s
    rw [loadRem, loadRem, remOf, remOf, h.1 hint]
  cases i
  case r2i32 | r2i64 | wrr32 | wrr64 => exact hbuf rfl
  case wrs32 | wrs64 | wru32 | wru64 | i2r32 | i2r64 => exact hrem rfl
  all_goals rfl

theorem SameOperand.valueOf_eq (h : SameOperand i q₁ q₂) (hmap : isMap i = true) : valueOf i q₁ = valueOf i q₂ := by
  have hint : i.op.operand = .int := by cases i <;> cases hmap <;> rfl
  rw [valueOf, valueOf, h.1 hint]

end sameOperand

/-- Settles O14: a command presented to an idle block reads it by `checkOf`, `loadOf` or `valueOf` only. -/
theorem unnamedOperandPartsAreIgnored : Obligations.UnnamedOperandPartsAreIgnored := by
  unfold Obligations.UnnamedOperandPartsAreIgnored
  intro i s q₁ q₂ rest hrun hint hrep
  have hsame : SameOperand i q₁ q₂ := ⟨hint, hrep⟩
  cases hmap : isMap i
  · rw [exec_run hmap, exec_run hmap]
    simp only [runCommand, hrun, hsame.checkOf_eq, hsame.loadOf_eq]
    rfl
  · rw [exec_map hmap, exec_map hmap]
    simp only [mapCommand, hrun, hsame.valueOf_eq hmap]

end Sys2Proof.Machine
end

section
/-! Proofs: the two ports and a command that waits for one (20_memory.md R51 to R56). -/

namespace Sys2Proof.Machine

open Sys2Proof

/-- An accepted byte is appended (20_memory.md R56). -/
theorem snkWrite_ok_out {snk m : Sink} {b : Byte} (h : snkWrite snk b = (some .ok, m)) : m.out = snk.out ++ [b] := by
  obtain ⟨-, ⟨hnone, -⟩ | ⟨-, hout⟩ | ⟨e, herr, -⟩⟩ := snkWrite_cases snk b _ m h
  · simp at hnone
  · exact hout
  · simp at herr

/-- Settles O22: the answers of the two ports, one lemma each. -/
theorem portAnswers : Obligations.PortAnswers := by
  unfold Obligations.PortAnswers
  refine ⟨fun src src' => ⟨fun b => srcRead_byte, fun hread => ?_, fun e hread => ?_⟩,
    fun snk snk' b => ⟨snkWrite_ok_out, fun e => snkWrite_err_out⟩⟩
  · exact ⟨srcRead_eoi_pos hread, (srcRead_cases src _ src' hread).1⟩
  · exact ⟨srcRead_pos_le hread, (srcRead_cases src _ src' hread).1⟩

/-- The bytes that a source delivers are the next of its data (20_memory.md R51). -/
theorem servesTo_data {src m : Source} {bs : List Byte} (h : servesTo src bs = some m) :
    (src.data.drop src.pos).take bs.length = bs := by
  induction bs generalizing src with
  | nil => rfl
  | cons b bs ih =>
    obtain ⟨mid, hread, hrest⟩ := servesTo_cons h
    obtain ⟨hbyte, hpos, hdata⟩ := srcRead_byte hread
    obtain ⟨hlt, rfl⟩ := List.getElem?_eq_some_iff.1 hbyte
    have htail := ih hrest
    rw [hpos, hdata] at htail
    rw [List.drop_eq_getElem_cons hlt, List.length_cons, List.take_succ_cons, htail]

/-- Settles O23: byte by byte along the list. -/
theorem streamsKeepTheirOrder : Obligations.StreamsKeepTheirOrder := by
  unfold Obligations.StreamsKeepTheirOrder
  refine ⟨fun src m bs hserve => ?_, fun snk m bs => acceptsTo_out⟩
  obtain ⟨hpos, hdata⟩ := servesTo_pos_data hserve
  exact ⟨servesTo_data hserve, hpos, hdata⟩

/-! ### Waiting -/

section wait

variable {i : Instr} {s : State}

theorem isMap_of_port (hport : i.op.port ≠ .none) : isMap i = false := by
  cases i <;> simp [Instr.op, Op.port] at hport <;> rfl

/-- A running command whose beat waits leaves the block in the state of that wait. -/
theorem exec_wait {s' : State} (hrun : s.run = some i) (hport : i.op.port ≠ .none) (hbeat : beatOf i s = .wait s') :
    exec i s = .next s' := by
  rw [exec_run (isMap_of_port hport), runCommand_running hrun, beatBound, runBeats_wait _ hbeat]

/-- A decoder command whose source is silent waits. -/
theorem exec_source_silent {src : Source} (hrun : s.run = some i) (hport : i.op.port = .source)
    (hread : srcRead s.src = (none, src)) : exec i s = .next { s with src := src } := by
  have hbeat : ∀ finish, decodeBeat i.fam finish s = .wait { s with src := src } := fun finish => by
    simp only [decodeBeat, hread]
  refine exec_wait hrun (by simp [hport]) ?_
  cases i
  case rds32 | rdr32 | rdu32 | rds64 | rdr64 | rdu64 => exact hbeat _
  all_goals cases hport

/-- An encoder command whose sink is silent waits. -/
theorem exec_sink_silent {snk : Sink} (hrun : s.run = some i) (hport : i.op.port = .sink)
    (hwrite : ∀ b, snkWrite s.snk b = (none, snk)) : exec i s = .next { s with snk := snk } := by
  have hencode : encodeBeat i.fam s = .wait { s with snk := snk } := by simp only [encodeBeat, hwrite]
  have hstored : writeBeat s = .wait { s with snk := snk } := by simp only [writeBeat, hwrite]
  refine exec_wait hrun (by simp [hport]) ?_
  cases i
  case wrs32 | wru32 | wrs64 | wru64 => exact hencode
  case wrr32 | wrr64 => exact hstored
  all_goals cases hport

/-- A source that is not attached never answers (70_reset_and_hazards.md R204). -/
theorem srcRead_detached {src : Source} (h : src.attached = false) : srcRead src = (none, src) := by
  simp [srcRead, h]

/-- A sink that is not attached never answers (70_reset_and_hazards.md R204). -/
theorem snkWrite_detached {snk : Sink} (h : snk.attached = false) (b : Byte) : snkWrite snk b = (none, snk) := by
  simp [snkWrite, h]

end wait

/-- Settles O24: the beat of a silent port is a wait, and a port that is not attached is silent and unchanged. -/
theorem waitingHoldsEveryRegister : Obligations.WaitingHoldsEveryRegister := by
  unfold Obligations.WaitingHoldsEveryRegister
  exact ⟨fun i s src => exec_source_silent, fun i s snk => exec_sink_silent,
    fun i s hrun hport hoff => exec_source_silent hrun hport (srcRead_detached hoff),
    fun i s hrun hport hoff => exec_sink_silent hrun hport (snkWrite_detached hoff)⟩

end Sys2Proof.Machine
end

section
/-! Proofs: the zigzag maps without a case split, and their order (40_zigzag.md R113, R115). -/

namespace Sys2Proof.Machine

open Sys2Proof

/-! ### The branch-free forms -/

/-- An arithmetic shift over the whole width spreads the sign bit. -/
theorem sshiftRight_sign {w : Nat} (v : BitVec w) :
    v.sshiftRight (w - 1) = if v.msb then BitVec.allOnes w else 0#w := by
  apply BitVec.eq_of_getLsbD_eq
  intro k hk
  have hbit : (v.sshiftRight (w - 1)).getLsbD k = v.msb := by
    rw [BitVec.getLsbD_sshiftRight, BitVec.msb_eq_getLsbD_last]
    obtain rfl | hpos := Nat.eq_zero_or_pos k
    · simp [hk, hk.ne']
    · simp [hk, show ¬ w - 1 + k < w by omega]
  rw [hbit]
  cases v.msb <;> simp [hk]

/-- `zze` by complement (R113): `-2v - 1` is the complement of `2v`. -/
theorem zze_eq_xor {w : Nat} (v : BitVec w) : zze v = (v <<< 1) ^^^ v.sshiftRight (w - 1) := by
  rw [zze, sshiftRight_sign]
  cases v.msb
  · simp
  · simp [BitVec.not_eq_neg_add, BitVec.shiftLeft_neg]

/-- The lowest bit, alone in a vector. -/
theorem setWidth_extractLsb'_zero_one {w : Nat} (u : BitVec w) :
    (u.extractLsb' 0 1).setWidth w = if u.getLsbD 0 then 1#w else 0#w := by
  apply BitVec.eq_of_getLsbD_eq
  intro k hk
  obtain rfl | hpos := Nat.eq_zero_or_pos k
  · rw [BitVec.getLsbD_setWidth, BitVec.getLsbD_extractLsb']
    cases u.getLsbD 0 <;> simp [hk]
  · cases u.getLsbD 0 <;> simp [hk, hpos.ne']

/-- `zzd` by complement (R113): `-h - 1` is the complement of `h`. -/
theorem zzd_eq_xor {w : Nat} (u : BitVec w) : zzd u = (u >>> 1) ^^^ (0 - (u.extractLsb' 0 1).setWidth w) := by
  rw [zzd, setWidth_extractLsb'_zero_one]
  cases u.getLsbD 0
  · simp
  · simp [BitVec.not_eq_neg_add, BitVec.neg_one_eq_allOnes]

/-- Settles O19: the two maps by complement. -/
theorem zigzagClosedForms : Obligations.ZigzagClosedForms := by
  unfold Obligations.ZigzagClosedForms
  exact fun f x => ⟨zze_eq_xor x, zzd_eq_xor x⟩

/-! ### The order of the encoded values -/

/-- Settles O21: the two halves as numbers, and the two ends of the signed range by evaluation. -/
theorem zigzagOrder : Obligations.ZigzagOrder := by
  unfold Obligations.ZigzagOrder
  refine fun f v => ⟨zze_toNat_of_nonneg, fun hneg => ?_, ?_⟩
  · rw [zze_toNat_of_neg hneg]
    ring
  · cases f <;> decide

end Sys2Proof.Machine
end

section
/-! Proofs: the canonical encoding: length, bytes, minimality (30_encoding.md R84, 42_encoder.md R143, R150). -/

namespace Sys2Proof.Machine

open Sys2Proof

/-! ### The bytes and the length -/

section encoding

variable {f : Fam} {v : BitVec f.W} {g k : Nat}

/-- An encoding, split at one of its bytes. -/
theorem enc_eq_take_cons_drop (hg : g < (enc f v).length) :
    enc f v = (enc f v).take g ++ (enc f v)[g] :: (enc f v).drop (g + 1) := by
  rw [← List.drop_eq_getElem_cons hg, List.take_append_drop]

theorem length_take_enc (hg : g < (enc f v).length) : ((enc f v).take g).length = g :=
  List.length_take_of_le hg.le

/-- The byte of an encoding at group index `g` is formed from the value shifted by `7g` (42_encoder.md R141). -/
theorem enc_getElem (hg : g < (enc f v).length) : (enc f v)[g] = encByte (v >>> (7 * g)) := by
  obtain ⟨hbyte, -⟩ := enc_split (enc_eq_take_cons_drop hg)
  rwa [length_take_enc hg] at hbyte

/-- A byte of an encoding is the last when nothing is left of the value. -/
theorem enc_last_iff (hg : g < (enc f v).length) : g + 1 = (enc f v).length ↔ nextRem (v >>> (7 * g)) = 0 := by
  obtain ⟨-, -, -, hlast⟩ := enc_split (enc_eq_take_cons_drop hg)
  rw [length_take_enc hg] at hlast
  rw [← hlast, List.drop_eq_nil_iff]
  omega

/-- Nothing is left above the group at index `g` when the value is below `2^(7(g+1))`. -/
theorem nextRem_shift_eq_zero_iff {w : Nat} (v : BitVec w) (g : Nat) :
    nextRem (v >>> (7 * g)) = 0 ↔ v.toNat < 2 ^ (7 * (g + 1)) := by
  rw [nextRem_eq_zero_iff, BitVec.toNat_ushiftRight, Nat.shiftRight_eq_div_pow,
    Nat.div_lt_iff_lt_mul (Nat.two_pow_pos _), Nat.mul_succ, Nat.pow_add, Nat.mul_comm]

theorem enc_length_pos (f : Fam) (v : BitVec f.W) : 1 ≤ (enc f v).length := by
  obtain ⟨bs, b, henc, -⟩ := enc_terminated f v
  simp [henc]

/-- `ENC_W(v)` has at most `k ≥ 1` bytes exactly when `v < 2^(7k)` (30_encoding.md R84). -/
theorem enc_length_le_iff (hk : 1 ≤ k) : (enc f v).length ≤ k ↔ v.toNat < 2 ^ (7 * k) := by
  have hpos := enc_length_pos f v
  constructor
  · intro hle
    have hlast := (enc_last_iff (f := f) (v := v) (g := (enc f v).length - 1) (by omega)).1 (by omega)
    rw [nextRem_shift_eq_zero_iff] at hlast
    exact hlast.trans_le (Nat.pow_le_pow_right (by decide) (by omega))
  · intro hlt
    by_contra hlong
    have hlast := (enc_last_iff (f := f) (v := v) (g := k - 1) (by omega)).2
      ((nextRem_shift_eq_zero_iff v _).2 (by rwa [Nat.sub_add_cancel hk]))
    omega

/-- The byte of an encoding at group index `g`, from the bits of the value (30_encoding.md R84). -/
theorem enc_getElem_bits (hg : g < (enc f v).length) :
    (enc f v)[g] = mkByte (decide (g + 1 < (enc f v).length)) (v.extractLsb' (7 * g) 7) := by
  have hflag : (nextRem (v >>> (7 * g)) != 0) = decide (g + 1 < (enc f v).length) := by
    rw [Bool.eq_iff_iff, bne_iff_ne, decide_eq_true_iff, Ne, ← enc_last_iff hg]
    omega
  have hgroup : lowGroup (v >>> (7 * g)) = v.extractLsb' (7 * g) 7 := by
    ext j hj
    simp [lowGroup]
  rw [enc_getElem hg, encByte, hflag, hgroup]

/-- An encoding takes all `N` bytes exactly when `N - 1` groups do not hold the value. -/
theorem enc_length_eq_N_iff : (enc f v).length = f.N ↔ ¬ v.toNat < 2 ^ (7 * (f.N - 1)) := by
  obtain ⟨bs, b, henc, hlen, -⟩ := enc_terminated f v
  have hle : (enc f v).length ≤ f.N := by simpa [henc] using hlen
  rw [← enc_length_le_iff (by cases f <;> decide)]
  omega

/-- A negative value takes `N` bytes (30_encoding.md R85): its bit `W - 1` lies in the last group. -/
theorem enc_length_of_neg (hneg : v.toInt < 0) : (enc f v).length = f.N := by
  have hhalf : 2 ^ (f.W - 1) ≤ v.toNat := by
    rw [← Nat.not_lt, ← toInt_nonneg_iff_lt_half]
    omega
  rw [enc_length_eq_N_iff, Nat.not_lt]
  exact (Nat.pow_le_pow_right (by decide) (by cases f <;> decide)).trans hhalf

end encoding

/-- Settles O43: the length by `enc_length_le_iff`, the bytes by `enc_getElem_bits`. -/
theorem encodingIsCanonical : Obligations.EncodingIsCanonical := by
  unfold Obligations.EncodingIsCanonical
  intro f v
  refine ⟨⟨enc_length_pos f v, ?_, fun k hk => (enc_length_le_iff hk).2⟩, fun g hg => ?_⟩
  · exact (enc_length_le_iff (enc_length_pos f v)).1 le_rfl
  · rw [List.getElem?_eq_getElem hg, enc_getElem_bits hg]
    rfl

/-- Settles O44: `N` bytes are needed exactly when the value is not below `2^(7(N-1))`. -/
theorem encodingLengths : Obligations.EncodingLengths := by
  unfold Obligations.EncodingLengths
  refine ⟨enc_terminated, fun f v => enc_length_of_neg, fun v => ?_, fun v => ?_⟩
  · have hfull := enc_length_eq_N_iff (f := .f32) (v := v)
    have hv := v.isLt
    simp only [Fam.N, Fam.W] at hfull hv
    rw [hfull, BitVec.toInt_eq_toNat_cond]
    split <;> omega
  · have hfull := enc_length_eq_N_iff (f := .f64) (v := v)
    have hv := v.isLt
    simp only [Fam.N, Fam.W] at hfull hv
    rw [hfull, BitVec.toInt_eq_toNat_cond]
    split <;> omega

/-! ### Minimality -/

/-- A group placed at index `g` stays below the next. -/
theorem placeGroup_toNat_lt (w g : Nat) (b : Byte) : (placeGroup w g b).toNat < 2 ^ (7 * (g + 1)) := by
  calc (placeGroup w g b).toNat
      ≤ ((groupOf b).setWidth w).toNat * 2 ^ (7 * g) := by
        rw [placeGroup, BitVec.toNat_shiftLeft, Nat.shiftLeft_eq]
        exact Nat.mod_le _ _
    _ ≤ (groupOf b).toNat * 2 ^ (7 * g) := by
        rw [BitVec.toNat_setWidth]
        exact Nat.mul_le_mul_right _ (Nat.mod_le _ _)
    _ < 2 ^ 7 * 2 ^ (7 * g) := Nat.mul_lt_mul_of_pos_right (groupOf b).isLt (Nat.two_pow_pos _)
    _ = 2 ^ (7 * (g + 1)) := by rw [← Nat.pow_add, Nat.mul_succ, Nat.add_comm]

/-- A byte list placed from group index `g` on stays below the group after its last. -/
theorem assembleFrom_toNat_lt (w g : Nat) (bs : List Byte) :
    (assembleFrom w g bs).toNat < 2 ^ (7 * (g + bs.length)) := by
  induction bs generalizing g with
  | nil => simp [assembleFrom]
  | cons b bs ih =>
    have hrest := ih (g + 1)
    rw [show g + 1 + bs.length = g + (b :: bs).length by rw [List.length_cons]; omega] at hrest
    rw [assembleFrom, BitVec.toNat_or]
    refine Nat.or_lt_two_pow ?_ hrest
    exact (placeGroup_toNat_lt w g b).trans_le (Nat.pow_le_pow_right (by decide) (by rw [List.length_cons]; omega))

/-- The last byte of an encoding is zero for zero only: with nothing in the last group and nothing above it, the byte
before it would be the last. -/
theorem eq_zero_of_enc_getLast {f : Fam} {v : BitVec f.W} (h : (enc f v).getLast? = some 0x00#8) : v = 0 := by
  obtain ⟨g, hlen⟩ : ∃ g, (enc f v).length = g + 1 := Nat.exists_eq_add_of_le' (enc_length_pos f v)
  have hg : g < (enc f v).length := by omega
  have hbyte : encByte (v >>> (7 * g)) = 0x00#8 := by
    rw [← enc_getElem hg]
    simpa [List.getLast?_eq_getElem?, hlen, hg] using h
  have hgroup : lowGroup (v >>> (7 * g)) = 0 := by
    rw [← groupOf_encByte, hbyte]
    decide
  have hzero : v >>> (7 * g) = 0#f.W := by
    have hsplit := lowGroup_or_nextRem (v >>> (7 * g))
    rw [hgroup, (enc_last_iff hg).1 hlen.symm] at hsplit
    simpa using hsplit.symm
  obtain rfl | hpos := Nat.eq_zero_or_pos g
  · simpa using hzero
  · have hshort : (enc f v).length ≤ g := by
      rw [enc_length_le_iff hpos]
      have hnum := congrArg BitVec.toNat hzero
      rw [BitVec.toNat_ushiftRight, Nat.shiftRight_eq_div_pow, BitVec.toNat_ofNat, Nat.zero_mod] at hnum
      exact (Nat.div_eq_zero_iff.1 hnum).resolve_left (Nat.two_pow_pos _).ne'
    omega

/-- Settles O45: a last byte of zero leaves nothing above the byte before it; a list cannot hold a value of more groups
than it has bytes. -/
theorem encodingIsMinimal : Obligations.EncodingIsMinimal := by
  unfold Obligations.EncodingIsMinimal
  refine ⟨fun f v => eq_zero_of_enc_getLast, fun f v l hvalue hne => ?_, fun f v => ?_⟩
  · rw [enc_length_le_iff (List.length_pos_iff.2 hne), ← hvalue]
    simpa [assemble] using assembleFrom_toNat_lt f.W 0 l
  · have hpos := enc_length_pos f v
    have hone : (enc f v).length = 1 ↔ v.toNat < 128 := by
      rw [← show (enc f v).length ≤ 1 ↔ v.toNat < 128 from enc_length_le_iff le_rfl]
      omega
    have hhalf := two_pow_fam_W f
    have hbig : 128 ≤ 2 ^ (f.W - 1) := by cases f <;> decide
    rw [hone, BitVec.toInt_eq_toNat_cond]
    split <;> omega

end Sys2Proof.Machine
end

section
/-! Proofs: the decoder commands, with every answer of the source (41_decoder.md R124 to R129, 43_fused_unsigned.md
R161). -/

namespace Sys2Proof.Machine

open Sys2Proof

/-! ### The response to an accepted list -/

/-- The response of a decoder command to an accepted byte list. -/
def responseTo (i : Instr) (l : List Byte) : Response := finishOf i (assemble i.fam.W l) (padded l)

/-- `RDS` answers the assembled value (41_decoder.md R124). -/
theorem responseTo_rds (f : Fam) : responseTo (.of f .rds) = fun l => .okInt (intResult f (assemble f.W l)) := by
  cases f <;> rfl

/-- `RDR` answers the list itself (41_decoder.md R125). -/
theorem responseTo_rdr (f : Fam) : responseTo (.of f .rdr) = fun l => .okRep (repResult f (padded l)) := by
  cases f <;> rfl

/-- `RDU` answers `zze_W` of the assembled value (43_fused_unsigned.md R161). -/
theorem responseTo_rdu (f : Fam) :
    responseTo (.of f .rdu) = fun l => .okInt (intResult f (zze (assemble f.W l))) := by
  cases f <;> rfl

theorem responseTo_ne_fail (i : Instr) (l : List Byte) (k : Failure) : responseTo i l ≠ .fail k := fun h => by
  have hstatus : statusField (responseTo i l) = 0 := statusField_finishOf ..
  exact statusField_fail_ne_zero k (h ▸ hstatus)

/-- A decoder command that goes on from a wait after `pre`, with every answer of the source after `bs` more. -/
theorem readOutcome_resume {f : Fam} {op : Op} (hport : op.port = .source) (s : State) (rest : List Request)
    {pre bs : List Byte} {src m : Source} (hall : ∀ x ∈ pre ++ bs, continues x = true)
    (hlen : (pre ++ bs).length ≤ f.N) (hserve : servesTo src bs = some m) :
    readOutcome (.of f op) (responseTo (.of f op)) s rest (pre ++ bs) m
      (exec (.of f op) (waitingRead (.of f op) s rest pre src)) := by
  rw [exec_resume (by rwa [op_of])]
  exact readOutcome_runBeats _ s rest pre bs src m (fun x hx => hall x (List.mem_append_right _ hx))
    (by rwa [fam_of]) hserve

/-! ### The obligations on one command -/

/-- Settles O26: every answer of the source is a clause of `readOutcome`. -/
theorem rdsReadsSigned : Obligations.RdsReadsSigned := by
  unfold Obligations.RdsReadsSigned
  refine ⟨by decide, fun f s q rest bs m hrun hreqs hbs hlen hserve => ?_, fun f => by cases f <;> decide, by decide⟩
  rw [← responseTo_rds]
  exact readOutcome_exec (op := .rds) rfl hrun hreqs hbs hlen hserve

/-- Settles O27: `readOutcome`, and the stored list read slot by slot. -/
theorem rdrStoresVerbatim : Obligations.RdrStoresVerbatim := by
  unfold Obligations.RdrStoresVerbatim
  refine ⟨by decide, fun f s q rest bs m hrun hreqs hbs hlen hserve => ?_,
    fun f bs b hbs hb hlen => ⟨?_, fun g hg => ?_⟩, by decide, by decide⟩
  · rw [← responseTo_rdr]
    exact readOutcome_exec (op := .rdr) rfl hrun hreqs hbs hlen hserve
  · exact repWF_repResult_padded hbs hb hlen
  · exact repSlot_repResult_padded (by simpa using hlen) hg

/-- Settles O28: `readOutcome`, and `zze_W` of a negative value as the odd number it is. -/
theorem rduReadsUnsigned : Obligations.RduReadsUnsigned := by
  unfold Obligations.RduReadsUnsigned
  refine ⟨by decide, fun f s q rest bs m hrun hreqs hbs hlen hserve => ?_, fun f => ⟨?_, ?_, fun v hneg => ?_⟩,
    by decide⟩
  · rw [← responseTo_rdu]
    exact readOutcome_exec (op := .rdu) rfl hrun hreqs hbs hlen hserve
  · cases f <;> decide
  · cases f <;> decide
  · have hodd := zze_toNat_of_neg hneg
    omega

/-- Settles O29: `readOutcome_resume` for each of the three commands. -/
theorem waitingDecodersResume : Obligations.WaitingDecodersResume := by
  unfold Obligations.WaitingDecodersResume
  intro f s rest pre bs src m hall hlen hserve
  rw [← responseTo_rds, ← responseTo_rdr, ← responseTo_rdu]
  exact ⟨readOutcome_resume rfl s rest hall hlen hserve, readOutcome_resume rfl s rest hall hlen hserve,
    readOutcome_resume rfl s rest hall hlen hserve⟩

/-- Settles O36: the first terminator of the two values stands in slot 0 and in slot 1. -/
theorem defaultRepresentation : Obligations.DefaultRepresentation := by
  unfold Obligations.DefaultRepresentation
  refine ⟨fun f => by cases f <;> decide, by decide, fun f s q rest hrun hreqs hrep => ?_, by decide,
    fun r r' => ⟨fun h _ _ => h ▸ rfl, rep_ext⟩⟩
  obtain hrep | hrep := hrep
  · have hvalue : intResult f (assemble f.W ((List.range 1).map (repSlot defaultRep))) = 0 := by cases f <;> decide
    have hterm : continues (repSlot defaultRep 0) = false := by decide
    rw [exec_r2i_terminator (k := 0) hrun hreqs (fam_N_pos f) (hrep ▸ hterm) (by simp), hrep, hvalue]
  · have hvalue : intResult f (assemble f.W ((List.range 2).map (repSlot 0x0080#80))) = 0 := by cases f <;> decide
    have hterm : continues (repSlot 0x0080#80 1) = false := by decide
    have hcont : ∀ j, j < 1 → continues (repSlot 0x0080#80 j) = true := by decide
    rw [exec_r2i_terminator (k := 1) hrun hreqs (by cases f <;> decide) (hrep ▸ hterm) (hrep ▸ hcont), hrep, hvalue]

/-! ### Two decoder commands from one state -/

/-- The deciding answer of the source is the same for every decoder command. -/
theorem exists_readEnd (f : Fam) {s : State} {q : Request} {rest : List Request} (hrun : s.run = none)
    (hreqs : s.reqs = q :: rest) :
    ∃ bs m, (∀ x ∈ bs, continues x = true) ∧ bs.length ≤ f.N ∧
      (∀ b, (srcRead m).1 = some (.byte b) → bs.length = f.N ∨ continues b = false) ∧
      ∀ op : Op, op.port = .source → exec (.of f op) s =
        .next (readEnd (.of f op) (responseTo (.of f op)) s rest bs (srcRead m)) := by
  obtain ⟨bs, m, hserve, hbs, hlen, hdecides⟩ := exists_deciding_read s.src f.N
  refine ⟨bs, m, hbs, hlen, hdecides, fun op hport => ?_⟩
  exact eq_readEnd_of_readOutcome (readOutcome_exec hport hrun hreqs hbs hlen hserve) (by rwa [fam_of])
    (by rwa [fam_of])

/-- Two decoder commands that come to the same answer leave the source in the same state, wait in the same cases and
fail in the same cases with the same failure. -/
theorem readEnd_agree (f : Fam) (op₁ op₂ : Op) (s : State) (rest : List Request) (bs : List Byte)
    (answer : Option SourceAnswer × Source) {t u : State}
    (ht : readEnd (.of f op₁) (responseTo (.of f op₁)) s rest bs answer = t)
    (hu : readEnd (.of f op₂) (responseTo (.of f op₂)) s rest bs answer = u) :
    t.src = u.src ∧ (t.run = none ↔ u.run = none) ∧
      ∀ k, t.resps = s.resps ++ [.fail k] ↔ u.resps = s.resps ++ [.fail k] := by
  subst ht hu
  match answer with
  | (none, src) => simp [readEnd, waitingRead]
  | (some .eoi, src) => simp [readEnd]
  | (some (.err e), src) => simp [readEnd]
  | (some (.byte b), src) =>
    by_cases hfull : bs.length = f.N
    · simp [readEnd, hfull]
    · simp [readEnd, hfull, responseTo_ne_fail]

/-- A decoder command answers a success only at a terminator. -/
theorem readEnd_success {i : Instr} {finish : List Byte → Response} {s : State} {rest : List Request} {bs : List Byte}
    {answer : Option SourceAnswer × Source} {r : Response} (hr : ∀ k, r ≠ .fail k)
    (h : (readEnd i finish s rest bs answer).resps = s.resps ++ [r]) :
    ∃ b src, answer = (some (.byte b), src) ∧ bs.length ≠ i.fam.N ∧ finish (bs ++ [b]) = r := by
  match answer with
  | (none, src) => simp [readEnd, waitingRead] at h
  | (some .eoi, src) => exact absurd (by simpa [readEnd] using h.symm) (hr _)
  | (some (.err e), src) => exact absurd (by simpa [readEnd] using h.symm) (hr _)
  | (some (.byte b), src) =>
    by_cases hfull : bs.length = i.fam.N
    · exact absurd (by simpa [readEnd, hfull] using h.symm) (hr _)
    · exact ⟨b, src, rfl, hfull, by simpa [readEnd, hfull] using h⟩

/-- Settles O47: both commands come to the same answer, and `R2I` of the stored list is its value. -/
theorem rdsEqualsRdrThenR2i : Obligations.RdsEqualsRdrThenR2i := by
  unfold Obligations.RdsEqualsRdrThenR2i
  intro f s t u q rest hrun hreqs ht hu
  obtain ⟨bs, m, hbs, hlen, hdecides, hexec⟩ := exists_readEnd f hrun hreqs
  replace ht := Host.Outcome.next.inj ((hexec .rds rfl).symm.trans ht)
  replace hu := Host.Outcome.next.inj ((hexec .rdr rfl).symm.trans hu)
  obtain ⟨hsrc, hwait, hfail⟩ := readEnd_agree f .rds .rdr s rest bs (srcRead m) ht hu
  refine ⟨hsrc, hwait, hfail, fun v hv => ?_⟩
  obtain ⟨b, src, hanswer, hroom, hvalue⟩ := readEnd_success (by simp) (ht ▸ hv)
  rw [fam_of] at hroom
  have hb := (hdecides b (by rw [hanswer])).resolve_left hroom
  rw [responseTo_rds, Response.okInt.injEq] at hvalue
  rw [hanswer, readEnd, fam_of, if_neg hroom, responseTo_rdr] at hu
  subst hu
  refine ⟨_, rfl, fun q' rest' hrep => ?_⟩
  rw [← hvalue]
  exact exec_r2i_stored rfl rfl hbs hb (lt_of_le_of_ne hlen hroom) hrep

/-- An integer result is read back from the operand field that carries it (10_state.md R31). -/
theorem intOperand_of_intResult {f : Fam} {q : Request} {v : BitVec f.W} (h : q.opndInt = intResult f v) :
    intOperand f q = v := by
  rw [intOperand, h]
  exact regValue_toReg f v

/-- `ZZE` of what `RDS` returns is what `RDU` returns, and both come to the same answer of the source. -/
theorem rdu_eq_rds_zze {f : Fam} {s t u : State} {q : Request} {rest : List Request} (hrun : s.run = none)
    (hreqs : s.reqs = q :: rest) (ht : exec (.of f .rdu) s = .next t) (hu : exec (.of f .rds) s = .next u) :
    t.src = u.src ∧ (t.run = none ↔ u.run = none) ∧
    (∀ k, t.resps = s.resps ++ [Response.fail k] ↔ u.resps = s.resps ++ [Response.fail k]) ∧
    (∀ v, u.resps = s.resps ++ [Response.okInt v] → ∀ (q' : Request) (rest' : List Request), q'.opndInt = v →
      ∃ w, t.resps = s.resps ++ [Response.okInt w] ∧
        exec (.of f .zze) { u with reqs := q' :: rest' } = .next (ended u rest' u.src u.snk (.okInt w))) := by
  obtain ⟨bs, m, -, -, -, hexec⟩ := exists_readEnd f hrun hreqs
  replace ht := Host.Outcome.next.inj ((hexec .rdu rfl).symm.trans ht)
  replace hu := Host.Outcome.next.inj ((hexec .rds rfl).symm.trans hu)
  obtain ⟨hsrc, hwait, hfail⟩ := readEnd_agree f .rdu .rds s rest bs (srcRead m) ht hu
  refine ⟨hsrc, hwait, hfail, fun v hv q' rest' hint => ?_⟩
  obtain ⟨b, src, hanswer, hroom, hvalue⟩ := readEnd_success (by simp) (hu ▸ hv)
  rw [fam_of] at hroom
  rw [responseTo_rds, Response.okInt.injEq] at hvalue
  rw [hanswer, readEnd, fam_of, if_neg hroom] at ht hu
  rw [responseTo_rdu] at ht
  subst ht hu
  refine ⟨_, rfl, ?_⟩
  have hoperand : intOperand f q' = assemble f.W (bs ++ [b]) := intOperand_of_intResult (hint.trans hvalue.symm)
  rw [exec_map_idle (by cases f <;> rfl) rfl rfl, valueOf_zze, hoperand]
  rfl

end Sys2Proof.Machine
end

section
/-! Proofs: the encoder commands, with every answer of the sink (42_encoder.md R145 to R149, 43_fused_unsigned.md
R162). -/

namespace Sys2Proof.Machine

open Sys2Proof

/-! ### One beat -/

/-- `GIDX` moved on by one, as a number. -/
theorem gidx_succ (g : BitVec 4) : BitVec.ofNat 4 (g.toNat + 1) = g + 1 := by
  simp [BitVec.ofNat_add]

/-- The byte of R141, as its parts are written in the register transfer of R149. -/
theorem encByte_eq_append {w : Nat} (r : BitVec w) :
    encByte r = BitVec.ofBool (decide (r >>> 7 ≠ 0)) ++ r.extractLsb' 0 7 := by
  have hflag : (nextRem r != 0) = decide (r >>> 7 ≠ 0) := by
    rw [Bool.eq_iff_iff, decide_eq_true_iff, bne_iff_ne]
    rfl
  rw [encByte, hflag]
  rfl

/-- Settles O37: the answers of the sink are the cases of the two beats, and after `Ok` the byte decides. -/
theorem encoderBeatTable : Obligations.EncoderBeatTable := by
  unfold Obligations.EncoderBeatTable
  rintro f s snk -
  constructor
  · rintro r nxt b rfl rfl hb
    obtain rfl : b = encByte (regValue f s.rem) := hb.trans (encByte_eq_append _).symm
    refine ⟨fun hwrite => ?_, fun e hwrite => ?_, fun hwrite hmore => ?_, fun hwrite hlast => ?_⟩
    · simp only [encodeBeat, hwrite]
    · simp only [encodeBeat, hwrite]
      rfl
    · replace hmore : nextRem (regValue f s.rem) ≠ 0 := hmore
      simp only [encodeBeat, hwrite, if_neg hmore, gidx_succ]
      rfl
    · replace hlast : nextRem (regValue f s.rem) = 0 := hlast
      simp only [encodeBeat, hwrite, if_pos hlast]
      rfl
  · rintro b rfl
    refine ⟨fun hwrite => ?_, fun e hwrite => ?_, fun hwrite hmore => ?_, fun hwrite hlast => ?_⟩
    · simp only [writeBeat, hwrite]
    · simp only [writeBeat, hwrite]
      rfl
    · replace hmore : continues (slotGet s.buf s.gidx.toNat) = true := hmore
      simp only [writeBeat, hwrite, if_pos hmore, gidx_succ]
    · replace hlast : ¬ continues (slotGet s.buf s.gidx.toNat) = true := by simpa [continues] using hlast
      simp only [writeBeat, hwrite, if_neg hlast]
      rfl

/-! ### The bytes that `WRR` offers -/

/-- What `RDR` stores of a terminated byte list is that byte list (42_encoder.md R147). -/
theorem repBytes_stored {f : Fam} {bs : List Byte} {b : Byte} (hbs : ∀ x ∈ bs, continues x = true)
    (hb : continues b = false) (hlen : bs.length < f.N) :
    repBytes f (repResult f (padded (bs ++ [b]))) = bs ++ [b] := by
  obtain ⟨hterm, hcont⟩ := first_terminator_repResult_padded hbs hb hlen
  have hslots := map_repSlot_repResult_padded (f := f) (bs := bs ++ [b]) (by simpa using hlen)
  rw [List.length_append, List.length_singleton] at hslots
  rw [repBytes_eq hlen hterm hcont, hslots]

/-- The stored `ENC_W(v)` has a terminator, and its bytes are those of the encoding. -/
theorem repBytes_enc (f : Fam) (v : BitVec f.W) :
    (∃ g, g < f.N ∧ continues (repSlot (repResult f (padded (enc f v))) g) = false) ∧
      repBytes f (repResult f (padded (enc f v))) = enc f v := by
  obtain ⟨bs, b, henc, hlen, hbs, hb⟩ := enc_terminated f v
  rw [henc]
  exact ⟨⟨bs.length, hlen, (first_terminator_repResult_padded hbs hb hlen).1⟩, repBytes_stored hbs hb hlen⟩

/-! ### The obligations on one command -/

theorem intOperand_f64 (q : Request) : intOperand .f64 q = q.opndInt := BitVec.setWidth_eq _

/-- Settles O38: every answer of the sink is a clause of `writeOutcome`; the corner values by evaluation. -/
theorem wrsWritesSigned : Obligations.WrsWritesSigned := by
  unfold Obligations.WrsWritesSigned
  refine ⟨by decide, fun s q rest pre post b m hrun hreqs haccept => ⟨fun hsplit => ?_, fun hsplit => ?_⟩,
    fun f => ⟨by cases f <;> decide, fun v => enc_length_of_neg⟩, by decide⟩
  · exact writeOutcome_exec_enc (f := .f32) (op := .wrs) (.inl rfl) hrun hreqs hsplit haccept
  · rw [← intOperand_f64] at hsplit ⊢
    exact writeOutcome_exec_enc (f := .f64) (op := .wrs) (.inl rfl) hrun hreqs hsplit haccept

/-- An odd number decodes to a negative value, and so takes `N` bytes (43_fused_unsigned.md R162). -/
theorem enc_zzd_length_of_odd {f : Fam} {u : BitVec f.W} (h : u.toNat % 2 = 1) : (enc f (zzd u)).length = f.N := by
  have hodd := zzd_toInt_of_odd h
  exact enc_length_of_neg (by omega)

/-- An even number decodes to its half. -/
theorem zzd_of_even {f : Fam} {u : BitVec f.W} (h : u.toNat % 2 = 0) : zzd u = BitVec.ofNat f.W (u.toNat / 2) := by
  have hnum : (zzd u).toNat = u.toNat / 2 := by rw [zzd_toNat, if_pos h]
  rw [← hnum, BitVec.ofNat_toNat, BitVec.setWidth_eq]

/-- Settles O39: as `WRS`, with `zzd_W` of the operand in `REM`. -/
theorem wruWritesUnsigned : Obligations.WruWritesUnsigned := by
  unfold Obligations.WruWritesUnsigned
  refine ⟨by decide, fun s q rest pre post b m hrun hreqs haccept => ⟨fun hsplit => ?_, fun hsplit => ?_⟩,
    fun f => ⟨by cases f <;> decide, fun u => enc_zzd_length_of_odd, fun u => zzd_of_even, by cases f <;> decide⟩,
    by decide⟩
  · exact writeOutcome_exec_enc (f := .f32) (op := .wru) (.inr rfl) hrun hreqs hsplit haccept
  · rw [← intOperand_f64] at hsplit ⊢
    exact writeOutcome_exec_enc (f := .f64) (op := .wru) (.inr rfl) hrun hreqs hsplit haccept

/-- Settles O41: the accepted operand by `writeOutcome`, the other by the check at issue, and the bytes of an operand by
its first terminator. -/
theorem wrrWritesVerbatim : Obligations.WrrWritesVerbatim := by
  unfold Obligations.WrrWritesVerbatim
  refine ⟨by decide, fun f s q rest pre post b m hrun hreqs hterm hsplit haccept => ?_,
    fun f s q rest hrun hreqs hcont => ?_, fun f r k => repBytes_eq, fun f bs b => repBytes_stored, by decide⟩
  · have hout := writeOutcome_exec_wrr hrun hreqs hterm hsplit haccept
    rwa [fam_of] at hout
  · exact exec_noTerminator (.inr (op_of ..)) hrun hreqs (by rwa [fam_of])

/-- Settles O42: the loops of the encoder from any of their waiting states. -/
theorem waitingEncodersResume : Obligations.WaitingEncodersResume := by
  unfold Obligations.WaitingEncodersResume
  refine ⟨fun i s rest v done pre post b snk m hop hsplit haccept => ?_,
    fun f s q rest done pre post b snk m hterm hsplit haccept => ?_⟩
  · rw [exec_enc_resume hop]
    exact writeOutcome_encode s rest v done pre post b snk m hsplit haccept
  · have hout := writeOutcome_write (.of f .wrr) s q rest done pre post b snk m (by rwa [fam_of]) (by rwa [fam_of])
      haccept
    rw [exec_wrr_resume]
    rwa [fam_of] at hout ⊢

/-! ### Two encoder commands on one sink -/

/-- Offering a byte list that is not empty comes to a byte whose answer decides. -/
theorem exists_deciding_write (snk : Sink) {l : List Byte} (hne : l ≠ []) :
    ∃ pre b post m, l = pre ++ b :: post ∧ acceptsTo snk pre = some m ∧
      ((snkWrite m b).1 = some .ok → post = []) := by
  obtain ⟨b, bs, rfl⟩ := List.exists_cons_of_ne_nil hne
  exact exists_deciding_offer snk b bs

theorem enc_ne_nil (f : Fam) (v : BitVec f.W) : enc f v ≠ [] := by
  obtain ⟨bs, b, henc⟩ := enc_eq_snoc f v
  simp [henc]

/-- The state to which the deciding answer of the sink takes an encoder command. -/
def writeEnd (waiting : Sink → State) (s : State) (rest : List Request) : Option SinkAnswer × Sink → State
  | (none, snk) => waiting snk
  | (some .ok, snk) => ended s rest s.src snk .okNone
  | (some (.err e), snk) => ended s rest s.src snk (.fail (.ioError e))

/-- The clauses of `writeOutcome`, at an answer that decides. -/
theorem eq_writeEnd_of_writeOutcome {waiting : Sink → State} {s : State} {rest : List Request} {b : Byte}
    {post : List Byte} {m : Sink} {o : Host.Outcome State Fault Refusal} (h : writeOutcome waiting s rest b post m o)
    (hdecides : (snkWrite m b).1 = some .ok → post = []) : o = .next (writeEnd waiting s rest (snkWrite m b)) := by
  obtain ⟨hok, herr, hwait⟩ := h
  match hwrite : snkWrite m b with
  | (none, snk) => exact hwait snk hwrite
  | (some .ok, snk) => exact hok snk hwrite (hdecides (by rw [hwrite]))
  | (some (.err e), snk) => exact herr e snk hwrite

/-- `I2R` and then `WRR` offer the bytes of `WRS`, and come to the same answer of the sink. -/
theorem wrs_eq_i2r_wrr {f : Fam} {s t : State} {q q' : Request} {rest : List Request} (hrun : s.run = none)
    (hreqs : s.reqs = q :: rest) (ht : exec (.of f .wrs) s = .next t)
    (hrep : q'.opndRep = repResult f (padded (enc f (intOperand f q)))) :
    (t.run = none → exec (.of f .wrr) { s with reqs := q' :: rest } = .next t) ∧
    (t.run ≠ none → ∃ u, exec (.of f .wrr) { s with reqs := q' :: rest } = .next u ∧
      u.run ≠ none ∧ u.snk = t.snk ∧ u.gidx = t.gidx ∧ u.resps = t.resps) := by
  obtain ⟨hterm, hbytes⟩ := repBytes_enc f (intOperand f q)
  obtain ⟨pre, b, post, m, hsplit, haccept, hdecides⟩ := exists_deciding_write s.snk (enc_ne_nil f (intOperand f q))
  have hwrs := eq_writeEnd_of_writeOutcome
    (writeOutcome_exec_enc (.inl rfl) hrun hreqs ((enc_remOf_wrs f q).trans hsplit) haccept) hdecides
  have hwrr := eq_writeEnd_of_writeOutcome
    (writeOutcome_exec_wrr (f := f) (s := { s with reqs := q' :: rest }) hrun rfl (hrep ▸ hterm)
      (hrep ▸ hbytes.trans hsplit) haccept) hdecides
  obtain rfl := Host.Outcome.next.inj (ht.symm.trans hwrs)
  rw [hwrr]
  match snkWrite m b with
  | (none, snk) => exact ⟨nofun, fun _ => ⟨_, rfl, nofun, rfl, rfl, rfl⟩⟩
  | (some .ok, snk) => exact ⟨fun _ => rfl, fun h => absurd rfl h⟩
  | (some (.err e), snk) => exact ⟨fun _ => rfl, fun h => absurd rfl h⟩

/-- Settles O48: `wrs_eq_i2r_wrr`, with what `I2R` stores. -/
theorem wrsEqualsI2rThenWrr : Obligations.WrsEqualsI2rThenWrr := by
  unfold Obligations.WrsEqualsI2rThenWrr
  exact fun f s t q rest hrun hreqs ht => ⟨_, exec_i2r hrun hreqs, fun q' => wrs_eq_i2r_wrr hrun hreqs ht⟩

/-- Waiting in `WRS` with the value that `WRU` has decoded is waiting in `WRU`, but for which command runs. -/
theorem waitingEncode_wrs_zzd {f : Fam} {q q' : Request} (h : intOperand f q' = zzd (intOperand f q)) (s : State)
    (rest : List Request) (n : Nat) (snk : Sink) :
    waitingEncode (.of f .wrs) s rest (remOf (.of f .wrs) q') n snk =
      { waitingEncode (.of f .wru) s rest (remOf (.of f .wru) q) n snk with run := some (.of f .wrs) } := by
  have hrem : toReg f (intOperand f q' >>> (7 * n)) = toReg f (zzd (intOperand f q) >>> (7 * n)) := by rw [h]
  cases f <;> simp only [waitingEncode, State.mk.injEq, and_true, true_and] <;> exact hrem

/-- `WRS` of what `ZZD` returns offers the bytes of `WRU`, and comes to the same answer of the sink. -/
theorem wru_eq_zzd_wrs {f : Fam} {s t : State} {q q' : Request} {rest : List Request} (hrun : s.run = none)
    (hreqs : s.reqs = q :: rest) (hint : q'.opndInt = intResult f (zzd (intOperand f q)))
    (ht : exec (.of f .wru) s = .next t) :
    (t.run = none → exec (.of f .wrs) { s with reqs := q' :: rest } = .next t) ∧
    (t.run ≠ none →
      exec (.of f .wrs) { s with reqs := q' :: rest } = .next { t with run := some (.of f .wrs) }) := by
  have hvalue := intOperand_of_intResult hint
  obtain ⟨pre, b, post, m, hsplit, haccept, hdecides⟩ :=
    exists_deciding_write s.snk (enc_ne_nil f (zzd (intOperand f q)))
  have hwru := eq_writeEnd_of_writeOutcome
    (writeOutcome_exec_enc (.inr rfl) hrun hreqs ((enc_remOf_wru f q).trans hsplit) haccept) hdecides
  have hwrs := eq_writeEnd_of_writeOutcome
    (writeOutcome_exec_enc (f := f) (s := { s with reqs := q' :: rest }) (.inl rfl) hrun rfl
      ((enc_remOf_wrs f q').trans (hvalue ▸ hsplit)) haccept) hdecides
  obtain rfl := Host.Outcome.next.inj (ht.symm.trans hwru)
  rw [hwrs]
  match snkWrite m b with
  | (none, snk) =>
    refine ⟨nofun, fun _ => congrArg _ ?_⟩
    exact waitingEncode_wrs_zzd hvalue s rest pre.length snk
  | (some .ok, snk) => exact ⟨fun _ => rfl, fun h => absurd rfl h⟩
  | (some (.err e), snk) => exact ⟨fun _ => rfl, fun h => absurd rfl h⟩

/-- Settles O49: `rdu_eq_rds_zze` and `wru_eq_zzd_wrs`. -/
theorem fusedCommandsAreCompositions : Obligations.FusedCommandsAreCompositions := by
  unfold Obligations.FusedCommandsAreCompositions
  refine ⟨fun f s t u q rest => rdu_eq_rds_zze, fun f s q rest hrun hreqs => ?_⟩
  refine ⟨_, (exec_map_idle (by cases f <;> rfl) hrun hreqs).trans (by rw [valueOf_zzd]), fun q' t hint ht => ?_⟩
  exact wru_eq_zzd_wrs hrun hreqs hint ht

/-! ### Mixing the signed and the unsigned commands -/

/-- `exec_enc_success` for `WRS`, which encodes its operand (42_encoder.md R145). -/
theorem exec_wrs_success {f : Fam} {s t : State} {q : Request} {rest : List Request} (hrun : s.run = none)
    (hreqs : s.reqs = q :: rest) (hexec : exec (.of f .wrs) s = .next t) (hresp : t.resps = s.resps ++ [.okNone]) :
    t.snk.out = s.snk.out ++ enc f (intOperand f q) := by
  rw [exec_enc_success (.inl rfl) hrun hreqs hexec hresp, enc_remOf_wrs]

/-- Settles O51: the bytes written are `ENC_W(zzd_W(u))` or `ENC_W(v)`, and they are read by the other path. -/
theorem mixingSignedAndUnsigned : Obligations.MixingSignedAndUnsigned := by
  unfold Obligations.MixingSignedAndUnsigned
  intro f s t s' q q' rest rest' bs m hrun hreqs hresp hout hrun' hreqs' hserve
  refine ⟨fun hexec => ?_, fun hexec => ?_⟩
  · obtain rfl : bs = enc f (zzd (intOperand f q)) :=
      List.append_cancel_left (hout.symm.trans (exec_wru_success hrun hreqs hexec hresp))
    exact exec_rds_enc hrun' hreqs' hserve
  · obtain rfl : bs = enc f (intOperand f q) :=
      List.append_cancel_left (hout.symm.trans (exec_wrs_success hrun hreqs hexec hresp))
    exact exec_rdu_enc hrun' hreqs' hserve

end Sys2Proof.Machine
end
